-- ==== Sys2Proof/Word.lean ====
section
/-! DEFINITION. The value types of the core: bytes, 16-bit words, 12-bit Addresses and register numbers
(spec/00_scope.md R7 to R9). Every value is unsigned; the core has no signed quantity. -/

namespace Sys2Proof

/-- An 8-bit value: a general register, a byte of MEM, an immediate (R7, R20). -/
abbrev Byte := BitVec 8

/-- A 16-bit value: `I`, `PC`, an opcode (R7, R60). -/
abbrev Word := BitVec 16

/-- An Address, 0 to 4095 (R15, R41): a 12-bit immediate and an entry of STACK. -/
abbrev Address := BitVec 12

/-- The number of a general register, 0 to 15 (R20): every value of a 4-bit register field is one. -/
abbrev RegIdx := Fin 16

/-- The flag register VF is general register 15 (R22). -/
abbrev vf : RegIdx := 15

end Sys2Proof
end

