-- ==== Sys2Proof/Config.lean ====
section
/-! DEFINITION. The parameters of the core (spec/00_scope.md R7): the fixed sizes, and the three open parameters
of the core, which one core holds constant and every claim quantifies over. The spec leaves no value free
(spec/30_encoding.md R71, spec/70_reset_and_hazards.md R183), so no constant here is opaque. -/

namespace Sys2Proof

/-- MEM_SIZE, 4096 bytes (R7). -/
abbrev memSize : Nat := 4096

/-- PROGRAM_BASE and PC_RESET, 0x200 (R7). -/
abbrev programBase : Nat := 0x200

/-- MAX_PROGRAM_LEN, 3584 bytes (R7, R174). -/
abbrev maxProgramLen : Nat := memSize - programBase

/-- DISP_W, 64 columns (R7). -/
abbrev dispW : Nat := 64

/-- DISP_H, 32 rows (R7). -/
abbrev dispH : Nat := 32

/-- INSTR_BYTES, every instruction is one 16-bit word (R7, R60). -/
abbrev instrBytes : Nat := 2

/-- The configuration of one core, constant after construction: `CFG.legacy_shift` (spec/10_state.md R30) and the two
open parameters that R7 lets a model take as arguments (log 5). -/
structure Config where
  /-- `CFG.legacy_shift` (R30): which operand register the two shifts read. -/
  legacyShift : Bool
  /-- STACK_DEPTH (R7, R28): `none` for an unbounded stack, or the number of return addresses it holds. -/
  stackDepth : Option Nat
  /-- SYS_LOW_NIBBLES (R7, R65): the low nibbles for which a group-0 opcode decodes to `Sys`. -/
  sysLowNibbles : List (BitVec 4)
  deriving DecidableEq, Repr

/-- All sixteen low nibbles, the default of SYS_LOW_NIBBLES (R7, the spec's decision D3; log 6). -/
def allNibbles : List (BitVec 4) :=
  [0x0, 0x1, 0x2, 0x3, 0x4, 0x5, 0x6, 0x7, 0x8, 0x9, 0xA, 0xB, 0xC, 0xD, 0xE, 0xF]

/-- The defaults of R7: `legacy_shift` false (D18, log 17), STACK_DEPTH none (D9, log 13), SYS_LOW_NIBBLES all
sixteen (D3, log 6). -/
def Config.default : Config where
  legacyShift := false
  stackDepth := none
  sysLowNibbles := allNibbles

end Sys2Proof
end

