-- ==== Sys2Proof/Syntax.lean ====
section
/-! DEFINITION. The closed set of 26 instruction variants (spec/30_encoding.md R64), one constructor per row of
spec/opcode_table.json, in that table's order, with the operands of spec/30_encoding.md R61 and R62. -/

namespace Sys2Proof

/-- One decoded instruction. A register operand is a register number, an immediate a byte, an address or the
immediate of `LoadIImm` a 12-bit value, all exactly as extracted (R62). -/
inductive Instr where
  /-- `ClearScreen`, 00E0 (R134). -/
  | clearScreen
  /-- `Return`, 00EE (R90); the name `ret` only because `return` is a word of Lean. -/
  | ret
  /-- `Call(addr)`, 2nnn (R91). -/
  | call (addr : Address)
  /-- `JumpTo(addr)`, 1nnn (R92). -/
  | jumpTo (addr : Address)
  /-- `Sys(addr)`, 0nnn other than the two literals (R93). -/
  | sys (addr : Address)
  /-- `LoadVImm(r, imm)`, 6xkk (R102). -/
  | loadVImm (r : RegIdx) (imm : Byte)
  /-- `AddVImm(r, imm)`, 7xkk (R103). -/
  | addVImm (r : RegIdx) (imm : Byte)
  /-- `SkipIfEqVImm(r, imm)`, 3xkk (R94). -/
  | skipIfEqVImm (r : RegIdx) (imm : Byte)
  /-- `SkipIfNotEqVImm(r, imm)`, 4xkk (R95). -/
  | skipIfNotEqVImm (r : RegIdx) (imm : Byte)
  /-- `SkipIfEqualV2(x, y)`, 5xy0 (R96). -/
  | skipIfEqualV2 (x y : RegIdx)
  /-- `SkipIfNotEqualV2(x, y)`, 9xy0 (R97). -/
  | skipIfNotEqualV2 (x y : RegIdx)
  /-- `SetEqual(x, y)`, 8xy0 (R104). -/
  | setEqual (x y : RegIdx)
  /-- `BitWiseOrEqual(x, y)`, 8xy1 (R105). -/
  | bitWiseOrEqual (x y : RegIdx)
  /-- `BitWiseAndEqual(x, y)`, 8xy2 (R106). -/
  | bitWiseAndEqual (x y : RegIdx)
  /-- `BitWiseXorEqual(x, y)`, 8xy3 (R107). -/
  | bitWiseXorEqual (x y : RegIdx)
  /-- `AddV2(x, y)`, 8xy4 (R108). -/
  | addV2 (x y : RegIdx)
  /-- `SubV2(x, y)`, 8xy5 (R109). -/
  | subV2 (x y : RegIdx)
  /-- `SubNV2(x, y)`, 8xy7 (R110). -/
  | subNV2 (x y : RegIdx)
  /-- `ShiftRight(x, y)`, 8xy6 (R111). -/
  | shiftRight (x y : RegIdx)
  /-- `ShiftLeft(x, y)`, 8xyE (R112). -/
  | shiftLeft (x y : RegIdx)
  /-- `LoadIImm(imm)`, Annn (R121). -/
  | loadIImm (imm : Address)
  /-- `AddIV(r)`, Fx1E (R122). -/
  | addIV (r : RegIdx)
  /-- `LoadRegistersFromMem(n)`, Fx65; `n` is the index of the last register of the block (R123). -/
  | loadRegistersFromMem (n : RegIdx)
  /-- `SaveRegistersToMem(n)`, Fx55; `n` is the index of the last register of the block (R124). -/
  | saveRegistersToMem (n : RegIdx)
  /-- `BCDRegister(r)`, Fx33 (R125). -/
  | bcdRegister (r : RegIdx)
  /-- `Draw(x, y, len)`, Dxyn; `len` is the number of sprite rows, 0 to 15 (R133). -/
  | draw (x y : RegIdx) (len : Fin 16)
  deriving DecidableEq, Repr

end Sys2Proof
end

