-- ==== Sys2Proof/Decode.lean ====
section
/-! DEFINITION. Decode and encode (spec/30_encoding.md). `decode` is the procedure of R63, a pure total function of the
16 opcode bits (R69) and of the constant parameter SYS_LOW_NIBBLES (R65); an illegal word is rejected by name with its
16 bits (R70). `encode` writes the word of an instruction from the layouts of R61 and the map of R64. The opcode numbers
of 24 of the 26 rows are general knowledge, not the source's (U17; log 4). -/

namespace Sys2Proof

/-! ## Fields (R61) -/

/-- `group`, bits 15:12. -/
def opGroup (op : Word) : BitVec 4 := op.extractLsb' 12 4

/-- `x`, bits 11:8, a register number. -/
def opX (op : Word) : RegIdx := (op.extractLsb' 8 4).toFin

/-- `y`, bits 7:4, a register number. -/
def opY (op : Word) : RegIdx := (op.extractLsb' 4 4).toFin

/-- `n`, bits 3:0, a discriminant, or the sprite length of `Draw`. -/
def opN (op : Word) : BitVec 4 := op.extractLsb' 0 4

/-- `kk`, bits 7:0, an 8-bit immediate or a discriminant. -/
def opKK (op : Word) : Byte := op.extractLsb' 0 8

/-- `nnn`, bits 11:0, a 12-bit address or immediate. -/
def opNNN (op : Word) : Address := op.extractLsb' 0 12

/-! ## Decode (R63) -/

/-- What decoding answers (R69): exactly one instruction, or `UnknownInstruction` carrying the opcode. -/
inductive Decoded where
  | instr (i : Instr)
  /-- The word is illegal (R70). -/
  | unknownInstruction (op : Word)
  deriving DecidableEq, Repr

/-- Group 0 after the two literals (R65). -/
def decodeGroup0 (c : Config) (op : Word) : Decoded :=
  if c.sysLowNibbles.contains (opN op) then .instr (.sys (opNNN op)) else .unknownInstruction op

/-- Group 5 (R66). -/
def decodeGroup5 (op : Word) : Decoded :=
  if opN op = 0x0#4 then .instr (.skipIfEqualV2 (opX op) (opY op)) else .unknownInstruction op

/-- Group 8, sub-decoded by the low nibble (R67). -/
def decodeGroup8 (op : Word) : Decoded :=
  if opN op = 0x0#4 then .instr (.setEqual (opX op) (opY op))
  else if opN op = 0x1#4 then .instr (.bitWiseOrEqual (opX op) (opY op))
  else if opN op = 0x2#4 then .instr (.bitWiseAndEqual (opX op) (opY op))
  else if opN op = 0x3#4 then .instr (.bitWiseXorEqual (opX op) (opY op))
  else if opN op = 0x4#4 then .instr (.addV2 (opX op) (opY op))
  else if opN op = 0x5#4 then .instr (.subV2 (opX op) (opY op))
  else if opN op = 0x6#4 then .instr (.shiftRight (opX op) (opY op))
  else if opN op = 0x7#4 then .instr (.subNV2 (opX op) (opY op))
  else if opN op = 0xE#4 then .instr (.shiftLeft (opX op) (opY op))
  else .unknownInstruction op

/-- Group 9 (R66). -/
def decodeGroup9 (op : Word) : Decoded :=
  if opN op = 0x0#4 then .instr (.skipIfNotEqualV2 (opX op) (opY op)) else .unknownInstruction op

/-- Group F, sub-decoded by the whole low byte (R68, the spec's decision D2; log 7). -/
def decodeGroupF (op : Word) : Decoded :=
  if opKK op = 0x1E#8 then .instr (.addIV (opX op))
  else if opKK op = 0x33#8 then .instr (.bcdRegister (opX op))
  else if opKK op = 0x55#8 then .instr (.saveRegistersToMem (opX op))
  else if opKK op = 0x65#8 then .instr (.loadRegistersFromMem (opX op))
  else .unknownInstruction op

/-- `Decode(op)` (R63): the two literals, then the group, then the group's sub-decode. -/
def decode (c : Config) (op : Word) : Decoded :=
  if op = 0x00E0#16 then .instr .clearScreen
  else if op = 0x00EE#16 then .instr .ret
  else if opGroup op = 0x0#4 then decodeGroup0 c op
  else if opGroup op = 0x1#4 then .instr (.jumpTo (opNNN op))
  else if opGroup op = 0x2#4 then .instr (.call (opNNN op))
  else if opGroup op = 0x3#4 then .instr (.skipIfEqVImm (opX op) (opKK op))
  else if opGroup op = 0x4#4 then .instr (.skipIfNotEqVImm (opX op) (opKK op))
  else if opGroup op = 0x5#4 then decodeGroup5 op
  else if opGroup op = 0x6#4 then .instr (.loadVImm (opX op) (opKK op))
  else if opGroup op = 0x7#4 then .instr (.addVImm (opX op) (opKK op))
  else if opGroup op = 0x8#4 then decodeGroup8 op
  else if opGroup op = 0x9#4 then decodeGroup9 op
  else if opGroup op = 0xA#4 then .instr (.loadIImm (opNNN op))
  else if opGroup op = 0xD#4 then .instr (.draw (opX op) (opY op) (opN op).toFin)
  else if opGroup op = 0xF#4 then decodeGroupF op
  else .unknownInstruction op

/-- The word whose byte at the lower address is `hi` (spec/20_memory.md R46): that byte is bits 15:8. -/
def wordOfBytes (hi lo : Byte) : Word := hi ++ lo

/-- The byte of a word that lies at the lower address, bits 15:8 (R46). -/
def highByte (op : Word) : Byte := op.extractLsb' 8 8

/-- The byte of a word that lies at the higher address, bits 7:0 (R46). -/
def lowByte (op : Word) : Byte := op.extractLsb' 0 8

/-- Decode the instruction at the head of a list of bytes, with the bytes after it; `none` when there are fewer than the
two bytes every instruction takes (R60). -/
def decodeBytes (c : Config) : List Byte → Option (Decoded × List Byte)
  | hi :: lo :: rest => some (decode c (wordOfBytes hi lo), rest)
  | [_] => none
  | [] => none

/-! ## Encode (R61, R64) -/

/-- Format NNN: a group and a 12-bit field. -/
def wordNNN (g : BitVec 4) (nnn : Address) : Word := g ++ nnn

/-- Format XKK: a group, a register number and a byte. -/
def wordXKK (g : BitVec 4) (x : RegIdx) (kk : Byte) : Word :=
  (g ++ (BitVec.ofFin x : BitVec 4) ++ kk : BitVec (4 + 4 + 8))

/-- Format XYN: a group, two register numbers and a nibble. -/
def wordXYN (g : BitVec 4) (x y : RegIdx) (n : BitVec 4) : Word :=
  (g ++ (BitVec.ofFin x : BitVec 4) ++ (BitVec.ofFin y : BitVec 4) ++ n : BitVec (4 + 4 + 4 + 4))

/-- The word of an instruction (R64). -/
def encode : Instr → Word
  | .clearScreen => 0x00E0#16
  | .ret => 0x00EE#16
  | .call addr => wordNNN 0x2#4 addr
  | .jumpTo addr => wordNNN 0x1#4 addr
  | .sys addr => wordNNN 0x0#4 addr
  | .loadVImm r imm => wordXKK 0x6#4 r imm
  | .addVImm r imm => wordXKK 0x7#4 r imm
  | .skipIfEqVImm r imm => wordXKK 0x3#4 r imm
  | .skipIfNotEqVImm r imm => wordXKK 0x4#4 r imm
  | .skipIfEqualV2 x y => wordXYN 0x5#4 x y 0x0#4
  | .skipIfNotEqualV2 x y => wordXYN 0x9#4 x y 0x0#4
  | .setEqual x y => wordXYN 0x8#4 x y 0x0#4
  | .bitWiseOrEqual x y => wordXYN 0x8#4 x y 0x1#4
  | .bitWiseAndEqual x y => wordXYN 0x8#4 x y 0x2#4
  | .bitWiseXorEqual x y => wordXYN 0x8#4 x y 0x3#4
  | .addV2 x y => wordXYN 0x8#4 x y 0x4#4
  | .subV2 x y => wordXYN 0x8#4 x y 0x5#4
  | .subNV2 x y => wordXYN 0x8#4 x y 0x7#4
  | .shiftRight x y => wordXYN 0x8#4 x y 0x6#4
  | .shiftLeft x y => wordXYN 0x8#4 x y 0xE#4
  | .loadIImm imm => wordNNN 0xA#4 imm
  | .addIV r => wordXKK 0xF#4 r 0x1E#8
  | .loadRegistersFromMem n => wordXKK 0xF#4 n 0x65#8
  | .saveRegistersToMem n => wordXKK 0xF#4 n 0x55#8
  | .bcdRegister r => wordXKK 0xF#4 r 0x33#8
  | .draw x y len => wordXYN 0xD#4 x y (BitVec.ofFin len)

/-- The two bytes of an instruction as memory holds them, the first at the lower address (R46, R60). -/
def encodeBytes (i : Instr) : List Byte := [highByte (encode i), lowByte (encode i)]

/-! ## The opcode map as rows (R64) -/

/-- The mask and the match of an instruction's row of R64: a word belongs to the row when its bits under the mask are
the match (the two literals being tested before `Sys`). -/
def opcodeRow : Instr → Word × Word
  | .clearScreen => (0xFFFF#16, 0x00E0#16)
  | .ret => (0xFFFF#16, 0x00EE#16)
  | .call _ => (0xF000#16, 0x2000#16)
  | .jumpTo _ => (0xF000#16, 0x1000#16)
  | .sys _ => (0xF000#16, 0x0000#16)
  | .loadVImm _ _ => (0xF000#16, 0x6000#16)
  | .addVImm _ _ => (0xF000#16, 0x7000#16)
  | .skipIfEqVImm _ _ => (0xF000#16, 0x3000#16)
  | .skipIfNotEqVImm _ _ => (0xF000#16, 0x4000#16)
  | .skipIfEqualV2 _ _ => (0xF00F#16, 0x5000#16)
  | .skipIfNotEqualV2 _ _ => (0xF00F#16, 0x9000#16)
  | .setEqual _ _ => (0xF00F#16, 0x8000#16)
  | .bitWiseOrEqual _ _ => (0xF00F#16, 0x8001#16)
  | .bitWiseAndEqual _ _ => (0xF00F#16, 0x8002#16)
  | .bitWiseXorEqual _ _ => (0xF00F#16, 0x8003#16)
  | .addV2 _ _ => (0xF00F#16, 0x8004#16)
  | .subV2 _ _ => (0xF00F#16, 0x8005#16)
  | .subNV2 _ _ => (0xF00F#16, 0x8007#16)
  | .shiftRight _ _ => (0xF00F#16, 0x8006#16)
  | .shiftLeft _ _ => (0xF00F#16, 0x800E#16)
  | .loadIImm _ => (0xF000#16, 0xA000#16)
  | .addIV _ => (0xF0FF#16, 0xF01E#16)
  | .loadRegistersFromMem _ => (0xF0FF#16, 0xF065#16)
  | .saveRegistersToMem _ => (0xF0FF#16, 0xF055#16)
  | .bcdRegister _ => (0xF0FF#16, 0xF033#16)
  | .draw _ _ _ => (0xF000#16, 0xD000#16)

/-! ## The host's view of the decoder -/

/-- The bytes, as memory holds them, of a word numbered as spec/opcode_table.json numbers it: one 16-bit word, bit 0 the
least significant, the bits above `nbits` zero. -/
def tableWordBytes (nbits w : Nat) : List Byte :=
  [highByte (BitVec.ofNat 16 (w % 2 ^ nbits)), lowByte (BitVec.ofNat 16 (w % 2 ^ nbits))]

/-- The instruction the decoder reads from a word of spec/opcode_table.json, under the default parameters of R7. -/
def decodeTableWord (nbits w : Nat) : Option Instr :=
  match decodeBytes Config.default (tableWordBytes nbits w) with
  | some (.instr i, _) => some i
  | some (.unknownInstruction _, _) => none
  | none => none

end Sys2Proof
end

