-- ==== Sys2Proof/Machine/State.lean ====
section
/-! DEFINITION. The machine's state as plain data, everything spec/10_state.md gives the core; the errors a step can
report (spec/60_exceptions.md R140); the state after RESET (spec/10_state.md R34, spec/70_reset_and_hazards.md R171). -/

namespace Sys2Proof.Machine

/-- The errors of R140, a closed list. The machine takes one by `raise` (Machine/Ops.lean), which gives a next state. -/
inductive ExecError where
  /-- Code 1 (R141): an address of 4096 or more at a fetch or a data access, or a return address of 4096. -/
  | addressOutOfBounds
  /-- Code 2 (R142): a fetch at an odd address. -/
  | addressUnaligned
  /-- Code 3 (R143): an illegal word, carrying all its 16 bits. -/
  | unknownInstruction (op : Word)
  /-- Code 4 (R144): `Return` with an empty stack. -/
  | stackUnderflow
  /-- Code 5 (R145): a pixel outside the grid. -/
  | displayOutOfBounds
  /-- Code 6 (R146): `Call` on a full stack of finite STACK_DEPTH. -/
  | stackOverflow
  deriving DecidableEq, Repr

/-- What a step returns to the host (R13): success, or exactly one error. -/
inductive StepResult where
  | success
  | error (e : ExecError)
  deriving DecidableEq, Repr

/-- The machine has no fault: every condition the spec gives an error for is taken as that error, with the next state
of spec/40_execute_cycle.md R85 (log 1), and no step of the core is without an outcome (R13, R86). Nothing raises a
fault, so none is unsafe. -/
inductive Fault where
  deriving DecidableEq, Repr

/-- Why an instruction has no meaning. -/
inductive Refusal where
  /-- The instruction has no meaning in this model; raised by an arm of `exec` only, and safe: a run stops where the
  hardware goes on. No arm raises it: every instruction has its meaning. -/
  | notModelled (mnemonic : String)
  deriving DecidableEq, Repr

/-- `MEM` (R26, R42): the bytes that differ from zero, addresses strictly rising (`Memory.wf` in Machine/Ops.lean); an
address that is not listed reads as zero, the reset value of R34 (log 3). -/
abbrev Memory := List Host.Cell

/-- `DISP` (R26, R130): 64 columns of 32 rows, `DISP[px][py]`; true is a lit pixel. -/
abbrev Display := Vector (Vector Bool dispH) dispW

/-- The whole state of the core (the table of spec/10_state.md, section 1). -/
structure State where
  /-- `V[0]` to `V[15]`, 8 bits each (R20). -/
  v : Vector Byte 16
  /-- `I`, 16 bits (R23). -/
  i : Word
  /-- `PC`, 16 bits (R24). -/
  pc : Word
  /-- `MEM` (R26). -/
  mem : Memory
  /-- `DISP` (R26). -/
  disp : Display
  /-- `STACK` (R27), the newest entry first (log 24). -/
  stack : List Address
  /-- `CFG.legacy_shift` and the open parameters of R7, constant (R30; log 5). -/
  cfg : Config
  /-- The model's own field: what the last step returned to the host (R13, R150). No operation of the core reads it
  (log 2). -/
  result : StepResult
  deriving DecidableEq, Repr

/-- The grid after `DisplayClear` (R131): every cell false. -/
def Display.blank : Display := Vector.replicate dispW (Vector.replicate dispH false)

/-- The core right after RESET with the configuration `c` (R34, R171). -/
def State.resetWith (c : Config) : State where
  v := Vector.replicate 16 0#8
  i := 0#16
  pc := 0x200#16
  mem := []
  disp := Display.blank
  stack := []
  cfg := c
  result := .success

/-- The core right after RESET with every parameter at its default (R7, R34, R171). -/
def State.reset : State := State.resetWith Config.default

end Sys2Proof.Machine
end

