-- ==== Sys2Proof/Machine/Ops.lean ====
section
/-! DEFINITION. The named operations over the state: registers, `MEM` (spec/20_memory.md R43 to R45), `DISP`
(spec/44_display.md R131, R132), `STACK` (spec/10_state.md R28, R29), fetching an instruction and advancing `PC`
(spec/40_execute_cycle.md R81, R82), and how a step ends: in success, or by raising an error
(spec/60_exceptions.md R150). -/

namespace Sys2Proof.Machine

/-! ## Fields -/

/-- `V[r]` (R10). -/
def State.getV (s : State) (r : RegIdx) : Byte := s.v.get r

/-- `V[r] <- b` (R10). -/
def State.setV (s : State) (r : RegIdx) (b : Byte) : State := { s with v := s.v.set r.val b r.isLt }

/-- `I <- w` (R10). -/
def State.setI (s : State) (w : Word) : State := { s with i := w }

/-- `pc <- w` (R10). -/
def State.setPc (s : State) (w : Word) : State := { s with pc := w }

/-- `MEM` replaced. -/
def State.setMem (s : State) (m : Memory) : State := { s with mem := m }

/-- `DISP` replaced. -/
def State.setDisp (s : State) (d : Display) : State := { s with disp := d }

/-- `STACK` replaced. -/
def State.setStack (s : State) (k : List Address) : State := { s with stack := k }

/-- What the step returns to the host. -/
def State.setResult (s : State) (r : StepResult) : State := { s with result := r }

/-! ## How a step ends -/

/-- The step ends in success (R80). -/
def complete (s : State) : Host.Outcome State Fault Refusal := .next (s.setResult .success)

/-- `raise e` (R12, R150), the one way an error is taken: the step stops here, every change made before stays, no
register receives a cause, `PC` is not redirected, and the error is returned to the host. There is no return from it
(R152): the next step goes on from this state. -/
def raise (e : ExecError) (s : State) : Host.Outcome State Fault Refusal := .next (s.setResult (.error e))

/-- The end of a step that made its changes and then met an error, or none. -/
def finish : State × Option ExecError → Host.Outcome State Fault Refusal
  | (s, none) => complete s
  | (s, some e) => raise e s

/-- The codes of R140; 0 is success (the spec's decision D14; log 22). -/
def ExecError.code : ExecError → Nat
  | .addressOutOfBounds => 1
  | .addressUnaligned => 2
  | .unknownInstruction _ => 3
  | .stackUnderflow => 4
  | .displayOutOfBounds => 5
  | .stackOverflow => 6

/-- The code of what a step returned (R140). -/
def StepResult.code : StepResult → Nat
  | .success => 0
  | .error e => e.code

/-! ## MEM -/

/-- `MEM[a]`: the listed byte, or zero (R34, R42). -/
def Memory.get : Memory → Nat → Byte
  | [], _ => 0#8
  | (b, x) :: rest, a => if b = a then x else Memory.get rest a

/-- A cell put in its place among rising addresses. -/
def Memory.insertCell : Memory → Nat → Byte → Memory
  | [], a, x => [(a, x)]
  | (b, y) :: rest, a, x => if a < b then (a, x) :: (b, y) :: rest else (b, y) :: Memory.insertCell rest a x

/-- The memory with the byte at one address taken out, so that it reads as zero. -/
def Memory.dropCell (m : Memory) (a : Nat) : Memory := m.filter (fun c => c.1 != a)

/-- `MEM[a] <- x`: a byte of zero is not listed. -/
def Memory.set (m : Memory) (a : Nat) (x : Byte) : Memory :=
  if x = 0#8 then m.dropCell a else (m.dropCell a).insertCell a x

/-- The canonical form: addresses strictly rising and inside `MEM`, no listed byte zero. -/
abbrev Memory.wf (m : Memory) : Prop :=
  m.Pairwise (fun p q => p.1 < q.1) ∧ ∀ c ∈ m, c.1 < memSize ∧ c.2 ≠ 0#8

/-- `MemRead(addr, 1)` (R43). -/
def memRead1 (m : Memory) (addr : Nat) : Except ExecError Byte :=
  if memSize ≤ addr then .error .addressOutOfBounds else .ok (m.get addr)

/-- `MemRead(addr, 2)` (R44): range, then alignment (the spec's decision D11; log 15), then two bytes, the first in bits
15:8 (R46). -/
def memRead2 (m : Memory) (addr : Nat) : Except ExecError Word :=
  if memSize ≤ addr then .error .addressOutOfBounds
  else if addr % 2 ≠ 0 then .error .addressUnaligned
  else .ok (wordOfBytes (m.get addr) (m.get (addr + 1)))

/-- `MemWrite(addr, 1, x)` (R45). -/
def memWrite1 (m : Memory) (addr : Nat) (x : Byte) : Except ExecError Memory :=
  if memSize ≤ addr then .error .addressOutOfBounds else .ok (m.set addr x)

/-- Bytes written one after another from `base` on (LOAD, R172). -/
def copyBytes : Memory → Nat → List Byte → Memory
  | m, _, [] => m
  | m, base, b :: bs => copyBytes (m.set base b) (base + 1) bs

/-- `MemWrite` of a list of addresses and bytes in that order; it stops at the first that fails, and the writes before
it stay (R126, the spec's decision D7; log 11). -/
def storeAll : List (Nat × Byte) → State → State × Option ExecError
  | [], s => (s, none)
  | (a, x) :: rest, s =>
    match memWrite1 s.mem a x with
    | .error e => (s, some e)
    | .ok m => storeAll rest (s.setMem m)

/-- `V[o] <- MemRead(base + o, 1)` for each register number of a list in that order; it stops at the first read that
fails, and the registers loaded before it stay loaded (R126, the spec's decision D7; log 11). -/
def loadAll (base : Nat) : List RegIdx → State → State × Option ExecError
  | [], s => (s, none)
  | o :: rest, s =>
    match memRead1 s.mem (base + o.val) with
    | .error e => (s, some e)
    | .ok x => loadAll base rest (s.setV o x)

/-- `len` bytes read from `base` on, in ascending order (R133, phase 1); the first read that fails is the error. -/
def readBytes (m : Memory) (base : Nat) : Nat → Except ExecError (List Byte)
  | 0 => .ok []
  | len + 1 =>
    match memRead1 m base with
    | .error e => .error e
    | .ok x =>
      match readBytes m (base + 1) len with
      | .error e => .error e
      | .ok xs => .ok (x :: xs)

/-! ## DISP -/

/-- Cell `(px, py)`, column first (R130); false outside the grid, where there is no cell. -/
def Display.get (d : Display) (px py : Nat) : Bool :=
  if h : px < dispW ∧ py < dispH then (d[px]'h.1)[py]'h.2 else false

/-- The grid with cell `(px, py)` toggled; outside the grid there is none to toggle. -/
def Display.toggle (d : Display) (px py : Nat) : Display :=
  if h : px < dispW ∧ py < dispH then
    d.set px ((d[px]'h.1).set py (!((d[px]'h.1)[py]'h.2)) h.2) h.1
  else d

/-- `FlipPixel(px, py)` (R132): outside the grid it raises `DisplayOutOfBounds` (the spec's decision D8; log 12). -/
def flipPixel (d : Display) (px py : Nat) : Except ExecError Display :=
  if dispW ≤ px ∨ dispH ≤ py then .error .displayOutOfBounds else .ok (d.toggle px py)

/-- `DisplayClear()` (R131): every cell false; it cannot fail. -/
def displayClear (s : State) : State := s.setDisp Display.blank

/-- `FlipPixel` of a list of coordinates in that order; it stops at the first that fails, and the flips before it stay
(R133, the spec's decision D8; log 12). -/
def flipAll : List (Nat × Nat) → Display → Display × Option ExecError
  | [], d => (d, none)
  | (px, py) :: rest, d =>
    match flipPixel d px py with
    | .error e => (d, some e)
    | .ok d' => flipAll rest d'

/-! ## STACK -/

/-- A finite stack that already holds as many entries as STACK_DEPTH allows (R28, R146). -/
def stackFull (c : Config) (k : List Address) : Bool :=
  match c.stackDepth with
  | none => false
  | some d => decide (d ≤ k.length)

/-- `Push(a)` (R28): what is not an Address is refused first, then a push on a full stack (the spec's decisions D6 and
D9; logs 10 and 13). -/
def push (c : Config) (k : List Address) (a : Nat) : Except ExecError (List Address) :=
  if 4095 < a then .error .addressOutOfBounds
  else if stackFull c k then .error .stackOverflow
  else .ok (BitVec.ofNat 12 a :: k)

/-- `Pop()` (R29): the newest entry and the stack without it. -/
def pop : List Address → Except ExecError (Address × List Address)
  | [] => .error .stackUnderflow
  | a :: k => .ok (a, k)

/-! ## The stages of a step before dispatch -/

/-- Stage 1, fetch (R81): the word at `PC`. -/
def fetch (s : State) : Except ExecError Word := memRead2 s.mem s.pc.toNat

/-- The address of the next sequential instruction: `PC + 2` (R24; log 21). -/
def nextPc (s : State) : Word := s.pc + 2#16

/-- Stage 2, advance (R82). -/
def advance (s : State) : State := s.setPc (nextPc s)

/-- A skip (R94 to R97): `PC + 2` when the condition holds, and `PC` kept when it does not. -/
def skipWhen (c : Bool) (s : State) : State := if c then s.setPc (nextPc s) else s

/-! ## Placing an instruction for the host's questions -/

/-- Where the next step can fetch: at `PC`, or, from a state whose `PC` no fetch accepts, at PROGRAM_BASE (log 20). -/
def fetchSlot (s : State) : Nat :=
  if s.pc.toNat < memSize ∧ s.pc.toNat % 2 = 0 then s.pc.toNat else programBase

/-- The bytes of an instruction put where the next step fetches it. -/
def placeBytes (s : State) (bytes : List Byte) : State :=
  (s.setMem (copyBytes s.mem (fetchSlot s) bytes)).setPc (BitVec.ofNat 16 (fetchSlot s))

end Sys2Proof.Machine
end

