-- ==== Sys2Proof/Machine/Flags.lean ====
section
/-! DEFINITION. The flag computations of the five instructions that write VF as a side effect (spec/10_state.md R22,
spec/42_register_alu.md R101, R108 to R112). -/

namespace Sys2Proof.Machine

/-- A boolean stored into an 8-bit register: 1 for true, 0 for false (R9). -/
def flagByte (b : Bool) : Byte := if b then 1#8 else 0#8

/-- `AddV2` (R108): the unsigned sum exceeds 255. -/
def carryFlag (a b : Byte) : Byte := flagByte (decide (255 < a.toNat + b.toNat))

/-- `SubV2` (R109): no borrow, equality included. -/
def noBorrowFlag (a b : Byte) : Byte := flagByte (decide (b.toNat ≤ a.toNat))

/-- `SubNV2` (R110): `V[y]` strictly greater than `V[x]` (log 19). -/
def greaterFlag (a b : Byte) : Byte := flagByte (decide (a.toNat < b.toNat))

/-- `ShiftRight` (R111): bit 0 of the source, the bit shifted out. -/
def lowBitFlag (src : Byte) : Byte := flagByte (src.getLsbD 0)

/-- `ShiftLeft` (R112): bit 7 of the source, the bit shifted out. -/
def highBitFlag (src : Byte) : Byte := flagByte (src.getLsbD 7)

/-- The result to `V[x]` first and the flag to `V[15]` second, so that VF ends holding the flag when `x` is 15 (R101,
the spec's decision D4; log 8). -/
def writeWithFlag (s : State) (x : RegIdx) (value flag : Byte) : State := (s.setV x value).setV vf flag

end Sys2Proof.Machine
end

