-- ==== Sys2Proof/Machine/Operands.lean ====
section
/-! DEFINITION. The operand forms: immediates and branch targets (spec/30_encoding.md R62), effective addresses
(spec/20_memory.md R50), the source of the shifts (spec/42_register_alu.md R111, R112), the block of a block transfer
(spec/43_index_memory.md R123, R124), the digits of a byte (R125), and the pixels of a sprite (spec/44_display.md R133). -/

namespace Sys2Proof.Machine

/-- An Address as a 16-bit value, zero-extended (R62): a branch target, the immediate of `LoadIImm`. -/
def zextAddress (a : Address) : Word := a.setWidth 16

/-- A byte as a 16-bit value, zero-extended (R9, R122). -/
def zextByte (b : Byte) : Word := b.setWidth 16

/-- The effective address `I + o`, an unbounded sum (R50, the spec's decision D5; log 9). -/
def effAddr (s : State) (o : Nat) : Nat := s.i.toNat + o

/-- The source of `ShiftRight` and `ShiftLeft` (R111, R112): `V[y]` when `CFG.legacy_shift` is true, else `V[x]`. -/
def shiftSource (s : State) (x y : RegIdx) : Byte := if s.cfg.legacyShift then s.getV y else s.getV x

/-- The sixteen register numbers in ascending order (R20). -/
def allRegs : List RegIdx := [0, 1, 2, 3, 4, 5, 6, 7, 8, 9, 10, 11, 12, 13, 14, 15]

/-- The block of a block transfer: the numbers 0 to `n`, `n` itself included, in ascending order (R120, R123). -/
def blockRegs (n : RegIdx) : List RegIdx := allRegs.take (n.val + 1)

/-- The hundreds digit of a byte (R125). -/
def hundredsDigit (b : Byte) : Byte := BitVec.ofNat 8 (b.toNat / 100)

/-- The tens digit of a byte (R125). -/
def tensDigit (b : Byte) : Byte := BitVec.ofNat 8 (b.toNat / 10 % 10)

/-- The ones digit of a byte (R125). -/
def onesDigit (b : Byte) : Byte := BitVec.ofNat 8 (b.toNat % 10)

/-- The columns of a sprite byte in ascending order (R133). -/
def spriteColumns : List Nat := [0, 1, 2, 3, 4, 5, 6, 7]

/-- The pixels that one sprite row flips: bit 7 is column 0; the sums are unbounded (R133, the spec's decision D8;
log 12). -/
def rowPixels (x0 y : Nat) (row : Byte) : List (Nat × Nat) :=
  (spriteColumns.filter (fun c => row.getLsbD (7 - c))).map (fun c => (x0 + c, y))

/-- The pixels that a sprite flips, rows outer and columns inner, both ascending (R133). -/
def spritePixels (x0 : Nat) : Nat → List Byte → List (Nat × Nat)
  | _, [] => []
  | y, row :: rows => rowPixels x0 y row ++ spritePixels x0 (y + 1) rows

end Sys2Proof.Machine
end

