-- ==== Sys2Proof/Machine/Alu.lean ====
section
/-! DEFINITION. Register loads, bitwise operations, arithmetic and shifts (spec/42_register_alu.md). All sources are
read before any register is written (R100); arithmetic is unsigned and wraps modulo 256 (R113). -/

namespace Sys2Proof.Machine

/-- `LoadVImm(r, imm)` (R102). -/
def execLoadVImm (r : RegIdx) (imm : Byte) (s : State) : Host.Outcome State Fault Refusal :=
  complete (s.setV r imm)

/-- `AddVImm(r, imm)` (R103): no flag. -/
def execAddVImm (r : RegIdx) (imm : Byte) (s : State) : Host.Outcome State Fault Refusal :=
  complete (s.setV r (s.getV r + imm))

/-- `SetEqual(x, y)` (R104). -/
def execSetEqual (x y : RegIdx) (s : State) : Host.Outcome State Fault Refusal :=
  complete (s.setV x (s.getV y))

/-- `BitWiseOrEqual(x, y)` (R105): no flag. -/
def execBitWiseOrEqual (x y : RegIdx) (s : State) : Host.Outcome State Fault Refusal :=
  complete (s.setV x (s.getV x ||| s.getV y))

/-- `BitWiseAndEqual(x, y)` (R106): no flag. -/
def execBitWiseAndEqual (x y : RegIdx) (s : State) : Host.Outcome State Fault Refusal :=
  complete (s.setV x (s.getV x &&& s.getV y))

/-- `BitWiseXorEqual(x, y)` (R107): no flag. -/
def execBitWiseXorEqual (x y : RegIdx) (s : State) : Host.Outcome State Fault Refusal :=
  complete (s.setV x (s.getV x ^^^ s.getV y))

/-- `AddV2(x, y)` (R108). -/
def execAddV2 (x y : RegIdx) (s : State) : Host.Outcome State Fault Refusal :=
  complete (writeWithFlag s x (s.getV x + s.getV y) (carryFlag (s.getV x) (s.getV y)))

/-- `SubV2(x, y)` (R109). -/
def execSubV2 (x y : RegIdx) (s : State) : Host.Outcome State Fault Refusal :=
  complete (writeWithFlag s x (s.getV x - s.getV y) (noBorrowFlag (s.getV x) (s.getV y)))

/-- `SubNV2(x, y)` (R110). -/
def execSubNV2 (x y : RegIdx) (s : State) : Host.Outcome State Fault Refusal :=
  complete (writeWithFlag s x (s.getV y - s.getV x) (greaterFlag (s.getV x) (s.getV y)))

/-- `ShiftRight(x, y)` (R111): logical, by one bit. -/
def execShiftRight (x y : RegIdx) (s : State) : Host.Outcome State Fault Refusal :=
  complete (writeWithFlag s x (shiftSource s x y >>> 1) (lowBitFlag (shiftSource s x y)))

/-- `ShiftLeft(x, y)` (R112): by one bit. -/
def execShiftLeft (x y : RegIdx) (s : State) : Host.Outcome State Fault Refusal :=
  complete (writeWithFlag s x (shiftSource s x y <<< 1) (highBitFlag (shiftSource s x y)))

end Sys2Proof.Machine
end

