-- ==== Sys2Proof/Machine/Control.lean ====
section
/-! DEFINITION. Control transfer (spec/41_control_transfer.md): `Return`, `Call`, `JumpTo`, `Sys` and the four skips.
`s.pc` is the post-fetch `PC` in every meaning (spec/40_execute_cycle.md R82). -/

namespace Sys2Proof.Machine

/-- `Return` (R90). -/
def execReturn (s : State) : Host.Outcome State Fault Refusal :=
  match pop s.stack with
  | .error e => raise e s
  | .ok (a, k) => complete ((s.setStack k).setPc (zextAddress a))

/-- `Call(addr)` (R91): the push may raise, and then the jump is not taken. -/
def execCall (addr : Address) (s : State) : Host.Outcome State Fault Refusal :=
  match push s.cfg s.stack s.pc.toNat with
  | .error e => raise e s
  | .ok k => complete ((s.setStack k).setPc (zextAddress addr))

/-- `JumpTo(addr)` (R92): absolute and unchecked. -/
def execJumpTo (addr : Address) (s : State) : Host.Outcome State Fault Refusal :=
  complete (s.setPc (zextAddress addr))

/-- `Sys(addr)` (R93): no effect, the operand ignored. -/
def execSys (_addr : Address) (s : State) : Host.Outcome State Fault Refusal :=
  complete s

/-- `SkipIfEqVImm(r, imm)` (R94). -/
def execSkipIfEqVImm (r : RegIdx) (imm : Byte) (s : State) : Host.Outcome State Fault Refusal :=
  complete (skipWhen (s.getV r == imm) s)

/-- `SkipIfNotEqVImm(r, imm)` (R95). -/
def execSkipIfNotEqVImm (r : RegIdx) (imm : Byte) (s : State) : Host.Outcome State Fault Refusal :=
  complete (skipWhen (s.getV r != imm) s)

/-- `SkipIfEqualV2(x, y)` (R96). -/
def execSkipIfEqualV2 (x y : RegIdx) (s : State) : Host.Outcome State Fault Refusal :=
  complete (skipWhen (s.getV x == s.getV y) s)

/-- `SkipIfNotEqualV2(x, y)` (R97). -/
def execSkipIfNotEqualV2 (x y : RegIdx) (s : State) : Host.Outcome State Fault Refusal :=
  complete (skipWhen (s.getV x != s.getV y) s)

end Sys2Proof.Machine
end

