-- ==== Sys2Proof/Machine/IndexMemory.lean ====
section
/-! DEFINITION. The index register and the instructions that move bytes through it (spec/43_index_memory.md). The
accesses of one instruction are made in ascending order (R120); when one raises, the earlier ones stay (R126). -/

namespace Sys2Proof.Machine

/-- `LoadIImm(imm)` (R121). -/
def execLoadIImm (imm : Address) (s : State) : Host.Outcome State Fault Refusal :=
  complete (s.setI (zextAddress imm))

/-- `AddIV(r)` (R122): modulo 65536 (the spec's decision D5; log 9), no flag. -/
def execAddIV (r : RegIdx) (s : State) : Host.Outcome State Fault Refusal :=
  complete (s.setI (s.i + zextByte (s.getV r)))

/-- `LoadRegistersFromMem(n)` (R123). -/
def execLoadRegistersFromMem (n : RegIdx) (s : State) : Host.Outcome State Fault Refusal :=
  finish (loadAll (effAddr s 0) (blockRegs n) s)

/-- The bytes `SaveRegistersToMem(n)` stores and where, in its order (R124). -/
def saveCells (n : RegIdx) (s : State) : List (Nat × Byte) :=
  (blockRegs n).map (fun o => (effAddr s o.val, s.getV o))

/-- `SaveRegistersToMem(n)` (R124). -/
def execSaveRegistersToMem (n : RegIdx) (s : State) : Host.Outcome State Fault Refusal :=
  finish (storeAll (saveCells n s) s)

/-- The bytes `BCDRegister(r)` stores and where, in its order: hundreds, tens, ones (R125). -/
def bcdCells (r : RegIdx) (s : State) : List (Nat × Byte) :=
  [(effAddr s 0, hundredsDigit (s.getV r)), (effAddr s 1, tensDigit (s.getV r)), (effAddr s 2, onesDigit (s.getV r))]

/-- `BCDRegister(r)` (R125). -/
def execBCDRegister (r : RegIdx) (s : State) : Host.Outcome State Fault Refusal :=
  finish (storeAll (bcdCells r s) s)

end Sys2Proof.Machine
end

