-- ==== Sys2Proof/Machine/Screen.lean ====
section
/-! DEFINITION. The display instructions (spec/44_display.md): `ClearScreen` and `Draw`. No wraparound, no clipping, no
collision flag (R135). -/

namespace Sys2Proof.Machine

/-- `ClearScreen` (R134). -/
def execClearScreen (s : State) : Host.Outcome State Fault Refusal :=
  complete (displayClear s)

/-- Phase 2 of `Draw` (R133): the flips of a sprite whose rows have been read, at `(V[x], V[y])`. -/
def drawRows (x y : RegIdx) (rows : List Byte) (s : State) : State × Option ExecError :=
  match flipAll (spritePixels (s.getV x).toNat (s.getV y).toNat rows) s.disp with
  | (d, e) => (s.setDisp d, e)

/-- `Draw(x, y, len)` (R133): the whole sprite is read before any cell is flipped. -/
def execDraw (x y : RegIdx) (len : Fin 16) (s : State) : Host.Outcome State Fault Refusal :=
  match readBytes s.mem (effAddr s 0) len.val with
  | .error e => raise e s
  | .ok rows => finish (drawRows x y rows s)

end Sys2Proof.Machine
end

