-- ==== Sys2Proof/Machine/Dispatch.lean ====
section
/-! DEFINITION. Stage 4 of the step, dispatch (spec/40_execute_cycle.md R84): one arm per variant, no default arm. -/

namespace Sys2Proof.Machine

def exec (i : Instr) (s : State) : Host.Outcome State Fault Refusal :=
  match i with
  | .clearScreen => Sys2Proof.Machine.execClearScreen s
  | .ret => Sys2Proof.Machine.execReturn s
  | .call addr => Sys2Proof.Machine.execCall addr s
  | .jumpTo addr => Sys2Proof.Machine.execJumpTo addr s
  | .sys addr => Sys2Proof.Machine.execSys addr s
  | .loadVImm r imm => Sys2Proof.Machine.execLoadVImm r imm s
  | .addVImm r imm => Sys2Proof.Machine.execAddVImm r imm s
  | .skipIfEqVImm r imm => Sys2Proof.Machine.execSkipIfEqVImm r imm s
  | .skipIfNotEqVImm r imm => Sys2Proof.Machine.execSkipIfNotEqVImm r imm s
  | .skipIfEqualV2 x y => Sys2Proof.Machine.execSkipIfEqualV2 x y s
  | .skipIfNotEqualV2 x y => Sys2Proof.Machine.execSkipIfNotEqualV2 x y s
  | .setEqual x y => Sys2Proof.Machine.execSetEqual x y s
  | .bitWiseOrEqual x y => Sys2Proof.Machine.execBitWiseOrEqual x y s
  | .bitWiseAndEqual x y => Sys2Proof.Machine.execBitWiseAndEqual x y s
  | .bitWiseXorEqual x y => Sys2Proof.Machine.execBitWiseXorEqual x y s
  | .addV2 x y => Sys2Proof.Machine.execAddV2 x y s
  | .subV2 x y => Sys2Proof.Machine.execSubV2 x y s
  | .subNV2 x y => Sys2Proof.Machine.execSubNV2 x y s
  | .shiftRight x y => Sys2Proof.Machine.execShiftRight x y s
  | .shiftLeft x y => Sys2Proof.Machine.execShiftLeft x y s
  | .loadIImm imm => Sys2Proof.Machine.execLoadIImm imm s
  | .addIV r => Sys2Proof.Machine.execAddIV r s
  | .loadRegistersFromMem n => Sys2Proof.Machine.execLoadRegistersFromMem n s
  | .saveRegistersToMem n => Sys2Proof.Machine.execSaveRegistersToMem n s
  | .bcdRegister r => Sys2Proof.Machine.execBCDRegister r s
  | .draw x y len => Sys2Proof.Machine.execDraw x y len s

end Sys2Proof.Machine
end

