-- ==== Sys2Proof/Machine/Step.lean ====
section
/-! DEFINITION. The step (spec/40_execute_cycle.md R80): fetch, advance, decode, dispatch. Fetching, advancing and
decoding are in Machine/Ops.lean and Decode.lean; the step only calls them. -/

namespace Sys2Proof.Machine

/-- Stages 3 and 4 on a state whose `PC` has been advanced (R83, R84). -/
def decodeAndExec (op : Word) (s : State) : Host.Outcome State Fault Refusal :=
  match decode s.cfg op with
  | .unknownInstruction w => raise (.unknownInstruction w) s
  | .instr i => exec i s

/-- `Step()` (R80): a failed fetch changes nothing; the advance of `PC` comes before decode and is never undone. -/
def step (s : State) : Host.Outcome State Fault Refusal :=
  match fetch s with
  | .error e => raise e s
  | .ok op => decodeAndExec op (advance s)

/-- `s` with a word of spec/opcode_table.json where the next step fetches it (log 20). -/
def State.withFetchWord (s : State) (nbits w : Nat) : State :=
  placeBytes s (tableWordBytes nbits w)

end Sys2Proof.Machine
end

