-- ==== Sys2Proof/Machine/HostPort.lean ====
section
/-! DEFINITION. The operations of the host (spec/70_reset_and_hazards.md R170): RESET, LOAD, STEP and the display port.
Each is atomic and they come one at a time (R177, R180). Nothing else enters the core. -/

namespace Sys2Proof.Machine

/-- What the host asks for. -/
inductive HostOp where
  /-- RESET, the construction of a core, with `legacy_shift` or without it (R171). -/
  | reset (legacyShift : Option Bool)
  /-- LOAD of a program's bytes (R172 to R174). -/
  | load (bytes : List Byte)
  /-- STEP (R175). -/
  | step
  /-- The display port: read one cell (R136). -/
  | readPixel (px py : Nat)
  /-- The display port: flip one cell (R136). -/
  | flipPixel (px py : Nat)
  /-- The display port: clear the grid (R136). -/
  | clearDisplay
  deriving DecidableEq, Repr

/-- What an operation returns to the host. -/
inductive Reply where
  | success
  | pixel (lit : Bool)
  | error (e : ExecError)
  deriving DecidableEq, Repr

/-- A step's result as the host receives it. -/
def StepResult.reply : StepResult → Reply
  | .success => .success
  | .error e => .error e

/-- RESET (R171): `legacy_shift` is false when not given (the spec's decision D18; log 17); the parameters STACK_DEPTH
and SYS_LOW_NIBBLES are the implementation's and stay (log 5). It cannot fail. -/
def hostReset (legacyShift : Option Bool) (s : State) : State :=
  State.resetWith { s.cfg with legacyShift := legacyShift.getD false }

/-- LOAD (R172 to R174): everything but the configuration is reset, then the bytes are copied to 0x200; a program that
does not fit copies nothing (the spec's decisions D12 and D13; log 16). -/
def load (bytes : List Byte) (s : State) : State × Reply :=
  if maxProgramLen < bytes.length then (State.resetWith s.cfg, .error .addressOutOfBounds)
  else ((State.resetWith s.cfg).setMem (copyBytes [] programBase bytes), .success)

/-- The display port's read of a cell; outside the grid it is refused (R136, the spec's decision D19; log 18). -/
def hostReadPixel (px py : Nat) (s : State) : Reply :=
  if dispW ≤ px ∨ dispH ≤ py then .error .displayOutOfBounds else .pixel (s.disp.get px py)

/-- The display port's `FlipPixel`; outside the grid it is refused and nothing changes (R136, D19; log 18). -/
def hostFlipPixel (px py : Nat) (s : State) : State × Reply :=
  match flipPixel s.disp px py with
  | .error e => (s, .error e)
  | .ok d => (s.setDisp d, .success)

/-- The display port's `DisplayClear` (R136). -/
def hostClearDisplay (s : State) : State := displayClear s

/-- One operation of the host on the core: the state it leaves and what it returns (R170). -/
def hostOp (op : HostOp) (s : State) : Host.Outcome (State × Reply) Fault Refusal :=
  match op with
  | .reset l => .next (hostReset l s, .success)
  | .load bytes => .next (load bytes s)
  | .step =>
    match step s with
    | .next t => .next (t, t.result.reply)
    | .fault f => .fault f
    | .refused r => .refused r
  | .readPixel px py => .next (s, hostReadPixel px py s)
  | .flipPixel px py => .next (hostFlipPixel px py s)
  | .clearDisplay => .next (hostClearDisplay s, .success)

end Sys2Proof.Machine
end

