-- ==== Sys2Proof/WellFormed.lean ====
section
/-! DEFINITION. Which terms of `Instr` an opcode can stand for. The operand types already carry the ranges of
spec/30_encoding.md R61 and R62; what is left concerns `Sys` alone: 0x00E0 and 0x00EE are not `Sys` (R63, R64), and the
low nibble of a `Sys` word lies in SYS_LOW_NIBBLES (R65). -/

namespace Sys2Proof

/-- The operand of a `Sys` word is not one of the two literals 0x00E0 and 0x00EE, which decode first (R63). -/
def sysNotLiteral (addr : Address) : Bool :=
  addr != 0x0E0#12 && addr != 0x0EE#12

/-- The low nibble of a `Sys` word is one for which group 0 decodes to `Sys` (R65). -/
def sysNibbleAllowed (c : Config) (addr : Address) : Bool :=
  c.sysLowNibbles.contains (addr.extractLsb' 0 4)

/-- The instruction has an encoding in a core of configuration `c`. -/
def WellFormed (c : Config) : Instr → Bool
  | .sys addr => sysNotLiteral addr && sysNibbleAllowed c addr
  | .clearScreen => true
  | .ret => true
  | .call _ => true
  | .jumpTo _ => true
  | .loadVImm _ _ => true
  | .addVImm _ _ => true
  | .skipIfEqVImm _ _ => true
  | .skipIfNotEqVImm _ _ => true
  | .skipIfEqualV2 _ _ => true
  | .skipIfNotEqualV2 _ _ => true
  | .setEqual _ _ => true
  | .bitWiseOrEqual _ _ => true
  | .bitWiseAndEqual _ _ => true
  | .bitWiseXorEqual _ _ => true
  | .addV2 _ _ => true
  | .subV2 _ _ => true
  | .subNV2 _ _ => true
  | .shiftRight _ _ => true
  | .shiftLeft _ _ => true
  | .loadIImm _ => true
  | .addIV _ => true
  | .loadRegistersFromMem _ => true
  | .saveRegistersToMem _ => true
  | .bcdRegister _ => true
  | .draw _ _ _ => true

end Sys2Proof
end

