-- ==== Sys2Proof/Safety.lean ====
section
/-! DEFINITION. The terms in which claims speak of the machine: what an instruction leaves unchanged, which instructions
write which part of the state, the invariant of reachable states (spec/10_state.md R36), a step and a run that report
no error (spec/93_implementation_defined.md U10), and the suggested end of a run (spec/92_eei_decisions.md D16). -/

namespace Sys2Proof.Machine

/-! ## Frames -/

/-- Every general register but those listed holds what it held. -/
def KeepsRegsBut (ds : List RegIdx) (s t : State) : Prop := ∀ j, j ∉ ds → t.getV j = s.getV j

/-- Every general register holds what it held. -/
def KeepsRegs (s t : State) : Prop := ∀ j, t.getV j = s.getV j

/-- Every byte of memory reads as it read. -/
def KeepsMem (s t : State) : Prop := ∀ a, t.mem.get a = s.mem.get a

/-- Nothing but the listed general registers (and what is returned to the host) has changed. -/
def FrameRegs (ds : List RegIdx) (s t : State) : Prop :=
  KeepsRegsBut ds s t ∧ t.i = s.i ∧ t.pc = s.pc ∧ KeepsMem s t ∧ t.disp = s.disp ∧ t.stack = s.stack ∧ t.cfg = s.cfg

/-- Nothing but `I` (and what is returned to the host) has changed. -/
def FrameIndex (s t : State) : Prop :=
  KeepsRegs s t ∧ t.pc = s.pc ∧ KeepsMem s t ∧ t.disp = s.disp ∧ t.stack = s.stack ∧ t.cfg = s.cfg

/-- Nothing but `PC` (and what is returned to the host) has changed. -/
def FramePc (s t : State) : Prop :=
  KeepsRegs s t ∧ t.i = s.i ∧ KeepsMem s t ∧ t.disp = s.disp ∧ t.stack = s.stack ∧ t.cfg = s.cfg

/-- Nothing but `PC` and `STACK` (and what is returned to the host) has changed. -/
def FramePcStack (s t : State) : Prop :=
  KeepsRegs s t ∧ t.i = s.i ∧ KeepsMem s t ∧ t.disp = s.disp ∧ t.cfg = s.cfg

/-- Nothing but `MEM` (and what is returned to the host) has changed. -/
def FrameMem (s t : State) : Prop :=
  KeepsRegs s t ∧ t.i = s.i ∧ t.pc = s.pc ∧ t.disp = s.disp ∧ t.stack = s.stack ∧ t.cfg = s.cfg

/-- Nothing but `DISP` (and what is returned to the host) has changed. -/
def FrameDisp (s t : State) : Prop :=
  KeepsRegs s t ∧ t.i = s.i ∧ t.pc = s.pc ∧ KeepsMem s t ∧ t.stack = s.stack ∧ t.cfg = s.cfg

/-- Nothing (but what is returned to the host) has changed. -/
def FrameAll (s t : State) : Prop :=
  KeepsRegs s t ∧ t.i = s.i ∧ t.pc = s.pc ∧ KeepsMem s t ∧ t.disp = s.disp ∧ t.stack = s.stack ∧ t.cfg = s.cfg

/-! ## Which instruction may write what (R21, R22, R23, R24, R27, R49, R130) -/

/-- The general registers an instruction may write (R21, R22). -/
def regsWritten : Instr → List RegIdx
  | .loadVImm r _ => [r]
  | .addVImm r _ => [r]
  | .setEqual x _ => [x]
  | .bitWiseOrEqual x _ => [x]
  | .bitWiseAndEqual x _ => [x]
  | .bitWiseXorEqual x _ => [x]
  | .addV2 x _ => [x, vf]
  | .subV2 x _ => [x, vf]
  | .subNV2 x _ => [x, vf]
  | .shiftRight x _ => [x, vf]
  | .shiftLeft x _ => [x, vf]
  | .loadRegistersFromMem n => blockRegs n
  | .clearScreen => []
  | .ret => []
  | .call _ => []
  | .jumpTo _ => []
  | .sys _ => []
  | .skipIfEqVImm _ _ => []
  | .skipIfNotEqVImm _ _ => []
  | .skipIfEqualV2 _ _ => []
  | .skipIfNotEqualV2 _ _ => []
  | .loadIImm _ => []
  | .addIV _ => []
  | .saveRegistersToMem _ => []
  | .bcdRegister _ => []
  | .draw _ _ _ => []

/-- `LoadIImm` and `AddIV` write `I` (R23). -/
def writesIndex (i : Instr) : Prop := (∃ imm, i = .loadIImm imm) ∨ (∃ r, i = .addIV r)

/-- The skips, `JumpTo`, `Call` and `Return` write `PC` in stage 4 (R24). -/
def writesPc (i : Instr) : Prop :=
  (∃ r imm, i = .skipIfEqVImm r imm) ∨ (∃ r imm, i = .skipIfNotEqVImm r imm) ∨ (∃ x y, i = .skipIfEqualV2 x y) ∨
    (∃ x y, i = .skipIfNotEqualV2 x y) ∨ (∃ a, i = .jumpTo a) ∨ (∃ a, i = .call a) ∨ i = .ret

/-- `SaveRegistersToMem` and `BCDRegister` write `MEM` (R49). -/
def writesMem (i : Instr) : Prop := (∃ n, i = .saveRegistersToMem n) ∨ (∃ r, i = .bcdRegister r)

/-- `Draw` and `ClearScreen` write `DISP` (R40). -/
def writesDisp (i : Instr) : Prop := (∃ x y len, i = .draw x y len) ∨ i = .clearScreen

/-- `Call` and `Return` write `STACK` (R27, R40). -/
def writesStack (i : Instr) : Prop := (∃ a, i = .call a) ∨ i = .ret

/-- The errors an instruction can raise in stage 4 (R147). -/
def mayRaise : Instr → List ExecError
  | .ret => [.stackUnderflow]
  | .call _ => [.addressOutOfBounds, .stackOverflow]
  | .loadRegistersFromMem _ => [.addressOutOfBounds]
  | .saveRegistersToMem _ => [.addressOutOfBounds]
  | .bcdRegister _ => [.addressOutOfBounds]
  | .draw _ _ _ => [.addressOutOfBounds, .displayOutOfBounds]
  | .clearScreen => []
  | .jumpTo _ => []
  | .sys _ => []
  | .loadVImm _ _ => []
  | .addVImm _ _ => []
  | .skipIfEqVImm _ _ => []
  | .skipIfNotEqVImm _ _ => []
  | .skipIfEqualV2 _ _ => []
  | .skipIfNotEqualV2 _ _ => []
  | .setEqual _ _ => []
  | .bitWiseOrEqual _ _ => []
  | .bitWiseAndEqual _ _ => []
  | .bitWiseXorEqual _ _ => []
  | .addV2 _ _ => []
  | .subV2 _ _ => []
  | .subNV2 _ _ => []
  | .shiftRight _ _ => []
  | .shiftLeft _ _ => []
  | .loadIImm _ => []
  | .addIV _ => []

/-! ## Reading a sprite as a claim does (R133) -/

/-- Sprite bit `(r, c)` of the bytes at `I`: row `r`, column `c`, the most significant bit first. -/
def spriteBit (s : State) (r c : Nat) : Bool := (s.mem.get (s.i.toNat + r)).getLsbD (7 - c)

/-- Row-major order of sprite bits: `(r, c)` comes before `(r', c')`. -/
def bitBefore (r c r' c' : Nat) : Prop := r < r' ∨ (r = r' ∧ c < c')

/-! ## The invariant of reachable states (R25, R27, R36) -/

/-- `PC` is at most 4098, and below 4096 when odd (R25, R36). -/
def PcOk (s : State) : Prop := s.pc.toNat ≤ 4098 ∧ (s.pc.toNat % 2 = 1 → s.pc.toNat < 4096)

/-- Every entry of `STACK` is even and at least 2 (R27, R36); as an Address and even it is at most 4094. -/
def StackOk (s : State) : Prop := ∀ a ∈ s.stack, a.toNat % 2 = 0 ∧ 2 ≤ a.toNat

/-- A stack of finite STACK_DEPTH holds at most that many entries (R28). -/
def DepthOk (s : State) : Prop := ∀ d, s.cfg.stackDepth = some d → s.stack.length ≤ d

/-- The invariant: memory in its canonical form and inside the address space, and the ranges of R36. -/
def State.Inv (s : State) : Prop := s.mem.wf ∧ PcOk s ∧ StackOk s ∧ DepthOk s

/-! ## Runs -/

/-- `k` steps one after another, whatever each returns: the host may step again after an error too (R152, R180). -/
def runSteps : Nat → State → Host.Outcome State Fault Refusal
  | 0, s => .next s
  | k + 1, s =>
    match step s with
    | .next t => runSteps k t
    | .fault f => .fault f
    | .refused r => .refused r

/-- `step s` succeeds and leaves `t`. -/
def StepsClean (s t : State) : Prop := step s = .next t ∧ t.result = .success

/-- `k` steps none of which reports an error: the premise U10 asks of a claim about a run. -/
def runClean : Nat → State → Option State
  | 0, s => some s
  | k + 1, s =>
    match step s with
    | .next t =>
      match t.result with
      | .success => runClean k t
      | .error _ => none
    | .fault _ => none
    | .refused _ => none

/-- The suggested END_OF_RUN (D16): the word at `PC` is the `JumpTo` whose target is `PC` itself, or the last step
reported an error. -/
def endOfRun (s : State) : Bool :=
  match s.result with
  | .error _ => true
  | .success =>
    match fetch s with
    | .error _ => false
    | .ok op => decide (decode s.cfg op = .instr (.jumpTo (BitVec.ofNat 12 s.pc.toNat)))

end Sys2Proof.Machine
end

