-- ==== Sys2Proof/Certificates/Slice0/Obligations.lean ====
section
/-! DEFINITION. The statements for the provers. In every statement about `exec`, `s.pc` is the post-fetch `PC`
(spec/40_execute_cycle.md R82). A statement whose docstring names a log entry or a decision D<n> rests, in the clause
named, on a choice of the spec or of the model and not on a sentence of the source. -/

open Sys2Proof Sys2Proof.Machine

/-! ## Encoding (spec/30_encoding.md) -/

/-- Decoding the word of a well-formed instruction gives the instruction back, every operand at every value, whatever
the parameters. The opcode numbers are the spec's assignment (U17, log 4). -/
def Obligations.DecodeOfEncode : Prop :=
  ∀ (c : Config) (i : Instr), WellFormed c i = true → decode c (encode i) = .instr i

/-- A word that decodes to an instruction is that instruction's word, and the instruction is well formed: no two words
decode to one instruction, so no bit of a legal word is dropped. -/
def Obligations.EncodeOfDecode : Prop :=
  ∀ (c : Config) (op : Word) (i : Instr), decode c op = .instr i → encode i = op ∧ WellFormed c i = true

/-- The illegal words under the default parameters are exactly those of the table of 30_encoding.md section 3, and the
rejection carries the word itself under any parameters. -/
def Obligations.IllegalWordsAreTheTable : Prop :=
  (∀ (c : Config) (op w : Word), decode c op = .unknownInstruction w → w = op) ∧
  ∀ op : Word, decode Config.default op = .unknownInstruction op ↔
    (opGroup op = 0x5#4 ∧ opN op ≠ 0x0#4) ∨
    (opGroup op = 0x8#4 ∧ opN op ∈ [0x8#4, 0x9#4, 0xA#4, 0xB#4, 0xC#4, 0xD#4, 0xF#4]) ∨
    (opGroup op = 0x9#4 ∧ opN op ≠ 0x0#4) ∨
    opGroup op = 0xB#4 ∨ opGroup op = 0xC#4 ∨ opGroup op = 0xE#4 ∨
    (opGroup op = 0xF#4 ∧ opKK op ∉ [0x1E#8, 0x33#8, 0x55#8, 0x65#8])

/-- A few words written out from the encoding tables, at least one per family, decode to what they stand for. -/
def Obligations.WrittenWordsDecode : Prop :=
  decode Config.default 0x00E0#16 = .instr .clearScreen ∧
  decode Config.default 0x00EE#16 = .instr .ret ∧
  decode Config.default 0x00E1#16 = .instr (.sys 0x0E1#12) ∧
  decode Config.default 0x10E0#16 = .instr (.jumpTo 0x0E0#12) ∧
  decode Config.default 0x3A7F#16 = .instr (.skipIfEqVImm 10 0x7F#8) ∧
  decode Config.default 0x8AB7#16 = .instr (.subNV2 10 11) ∧
  decode Config.default 0xF133#16 = .instr (.bcdRegister 1) ∧
  decode Config.default 0xD125#16 = .instr (.draw 1 2 5) ∧
  decode Config.default 0x8AB8#16 = .unknownInstruction 0x8AB8#16 ∧
  decode Config.default 0xF129#16 = .unknownInstruction 0xF129#16

/-! ## The step (spec/40_execute_cycle.md) -/

/-- The step, stage by stage: a fetch that fails raises one of its two errors and changes nothing; after a fetch `PC`
advances, then the word is decoded; an illegal word raises; a legal one runs its own meaning on the advanced state, and
the step returns success or an error that meaning can raise (R80, R81, R83, R147). That an error is returned as a next
state, in its `result`, is the model's reading (log 1). -/
def Obligations.StepRunsTheDecodedInstruction : Prop :=
  ∀ s : State,
    (∀ e, fetch s = .error e → (e = .addressOutOfBounds ∨ e = .addressUnaligned) ∧
      step s = .next (s.setResult (.error e))) ∧
    (∀ op w, fetch s = .ok op → decode s.cfg op = .unknownInstruction w →
      w = op ∧ step s = .next ((s.setPc (s.pc + 2#16)).setResult (.error (.unknownInstruction op)))) ∧
    (∀ op i, fetch s = .ok op → decode s.cfg op = .instr i → step s = exec i (s.setPc (s.pc + 2#16)) ∧
      ∃ t, step s = .next t ∧ (t.result = .success ∨ ∃ e, e ∈ mayRaise i ∧ t.result = .error e))

/-- Fetch is big-endian: the byte at the lower, even address is bits 15:8 of the opcode, the next byte bits 7:0; and a
word is fetched at an even address only. -/
def Obligations.FetchIsBigEndian : Prop :=
  ∀ s : State,
    (s.pc.toNat % 2 = 0 → s.pc.toNat ≤ 4094 →
      ∃ op, fetch s = .ok op ∧ highByte op = s.mem.get s.pc.toNat ∧ lowByte op = s.mem.get (s.pc.toNat + 1)) ∧
    (∀ op, fetch s = .ok op → s.pc.toNat % 2 = 0)

/-- A fetch at an odd address below 4096, or at 4096 or more, raises, changes nothing, and does so at every later step
(the order of the two checks is D11, log 15; that the core is stuck is the spec's own inference). -/
def Obligations.FailedFetchIsStuck : Prop :=
  ∀ (s : State) (k : Nat),
    (s.pc.toNat % 2 = 1 → s.pc.toNat < 4096 →
      runSteps (k + 1) s = .next (s.setResult (.error .addressUnaligned))) ∧
    (4096 ≤ s.pc.toNat →
      runSteps (k + 1) s = .next (s.setResult (.error .addressOutOfBounds)))

/-- `PC` advances by 2 immediately after a successful fetch, without wrapping: a legal word runs on the state whose `PC`
is already 2 higher, the step of every word that does not itself write `PC` ends there, and so does every step that
fails, since a later failure never undoes the advance. -/
def Obligations.AdvanceIsNeverUndone : Prop :=
  ∀ (s t : State) (op : Word), fetch s = .ok op → step s = .next t →
    (s.pc + 2#16).toNat = s.pc.toNat + 2 ∧ s.pc.toNat + 2 ≤ 4096 ∧
    (∀ i, decode s.cfg op = .instr i → exec i (s.setPc (s.pc + 2#16)) = .next t ∧
      (¬ writesPc i → t.pc = s.pc + 2#16)) ∧
    (∀ w, decode s.cfg op = .unknownInstruction w → t.pc = s.pc + 2#16) ∧
    (∀ e, t.result = .error e → t.pc = s.pc + 2#16)

/-- An illegal word: the step reports it with its exact bits, the state differs in `PC` alone, and the next fetch is of
the following word. -/
def Obligations.IllegalWordOnlyAdvances : Prop :=
  ∀ (s : State) (op w : Word), fetch s = .ok op → decode s.cfg op = .unknownInstruction w →
    w = op ∧
    ∃ t, step s = .next t ∧ t.result = .error (.unknownInstruction op) ∧ t.pc.toNat = s.pc.toNat + 2 ∧
      FramePc s t ∧ fetch t = memRead2 s.mem (s.pc.toNat + 2)

/-- Every step, from every state, answers a next state: success or exactly one error, never a stop. -/
def Obligations.EveryStepAnswers : Prop :=
  ∀ s : State, ∃ t, step s = .next t ∧ (t.result = .success ∨ ∃ e, t.result = .error e)

/-! ## MEM (spec/20_memory.md) -/

/-- The byte primitives: 4096 or more raises `AddressOutOfBounds`; below it a read gives the byte, a write changes that
byte and no other, whatever form the memory is in. -/
def Obligations.ByteAccessIsChecked : Prop :=
  ∀ (m : Memory) (a : Nat) (x : Byte),
    (4096 ≤ a → memRead1 m a = .error .addressOutOfBounds ∧ memWrite1 m a x = .error .addressOutOfBounds) ∧
    (a < 4096 → memRead1 m a = .ok (m.get a) ∧
      ∃ m', memWrite1 m a x = .ok m' ∧ memRead1 m' a = .ok x ∧ ∀ b, b ≠ a → m'.get b = m.get b)

/-- The model's representation: two canonical memories that read alike at every address are the same data. -/
def Obligations.CanonicalMemoriesAreEqual : Prop :=
  ∀ m m' : Memory, m.wf → m'.wf → (∀ a, m.get a = m'.get a) → m = m'

/-- Two bytes stored by `SaveRegistersToMem` at an even `I` are fetched as one opcode, `V[0]` its high byte and `V[1]`
its low byte: stores are seen by fetch at once. -/
def Obligations.StoredBytesAreFetched : Prop :=
  ∀ (s t : State) (n : RegIdx), 1 ≤ n.val → s.i.toNat % 2 = 0 → s.i.toNat + n.val < 4096 →
    exec (.saveRegistersToMem n) s = .next t →
    fetch (t.setPc t.i) = .ok (wordOfBytes (s.getV 0) (s.getV 1))

/-! ## Control transfer (spec/41_control_transfer.md) -/

/-- `Return` with a return address on the stack: the newest entry goes to `PC` and leaves the stack, nothing else
changes, and where the entry is even the next fetch succeeds; with an empty stack it raises `StackUnderflow`, the stack
stays empty and `PC` keeps the post-fetch value. -/
def Obligations.ReturnPopsOrUnderflows : Prop :=
  ∀ s : State,
    (∀ a k, s.stack = a :: k →
      ∃ t, exec .ret s = .next t ∧ t.result = .success ∧ t.pc.toNat = a.toNat ∧ t.stack = k ∧ FramePcStack s t ∧
        (a.toNat % 2 = 0 → ∃ op, fetch t = .ok op)) ∧
    (s.stack = [] →
      ∃ t, exec .ret s = .next t ∧ t.result = .error .stackUnderflow ∧ FrameAll s t)

/-- `Call` where the post-fetch `PC` is an Address and the stack has room: the post-fetch `PC` is pushed, the target goes
to `PC`, nothing else changes (entries are Addresses and depth is a parameter: D6, D9, logs 10 and 13). -/
def Obligations.CallPushesAndJumps : Prop :=
  ∀ (s : State) (addr : Address), s.pc.toNat ≤ 4095 → (∀ d, s.cfg.stackDepth = some d → s.stack.length < d) →
    ∃ t a, exec (.call addr) s = .next t ∧ t.result = .success ∧ a.toNat = s.pc.toNat ∧ t.stack = a :: s.stack ∧
      t.pc.toNat = addr.toNat ∧ FramePcStack s t

/-- `Call` whose post-fetch `PC` is no Address raises `AddressOutOfBounds` even when the stack is full too, and one on a
full stack of finite depth raises `StackOverflow`; nothing is pushed and the jump is not taken (D6, D9; logs 10, 13). -/
def Obligations.CallRefusesThePush : Prop :=
  ∀ (s : State) (addr : Address),
    (4096 ≤ s.pc.toNat →
      ∃ t, exec (.call addr) s = .next t ∧ t.result = .error .addressOutOfBounds ∧ FrameAll s t) ∧
    (∀ d, s.pc.toNat ≤ 4095 → s.cfg.stackDepth = some d → d ≤ s.stack.length →
      ∃ t, exec (.call addr) s = .next t ∧ t.result = .error .stackOverflow ∧ FrameAll s t)

/-- Call then Return: from any state in between with the stack that `Call` left, `Return` goes to the address after the
`Call` and the stack is as before it. -/
def Obligations.CallThenReturnRestores : Prop :=
  ∀ (s t u : State) (addr : Address), exec (.call addr) s = .next t → t.result = .success → u.stack = t.stack →
    ∃ w, exec .ret u = .next w ∧ w.result = .success ∧ w.pc = s.pc ∧ w.stack = s.stack

/-- `JumpTo`: the absolute target goes to `PC`, nothing else changes; no address is checked, an odd target makes the
next step raise `AddressUnaligned` and an even one makes the next fetch succeed; a step that runs a `JumpTo` to its own
address leaves the whole state as it was. -/
def Obligations.JumpToSetsPc : Prop :=
  ∀ (s : State) (addr : Address),
    (∃ t, exec (.jumpTo addr) s = .next t ∧ t.result = .success ∧ t.pc.toNat = addr.toNat ∧ FramePc s t ∧
      (addr.toNat % 2 = 1 → step t = .next (t.setResult (.error .addressUnaligned))) ∧
      (addr.toNat % 2 = 0 → ∃ op, fetch t = .ok op)) ∧
    (∀ op, fetch s = .ok op → decode s.cfg op = .instr (.jumpTo addr) → addr.toNat = s.pc.toNat →
      step s = .next (s.setResult .success))

/-- A `JumpTo` to its own address leaves the whole state as it was, at this step and at every later one. -/
def Obligations.SelfJumpIsFixed : Prop :=
  ∀ (s : State) (op : Word) (addr : Address) (k : Nat),
    fetch s = .ok op → decode s.cfg op = .instr (.jumpTo addr) → addr.toNat = s.pc.toNat →
    runSteps (k + 1) s = .next (s.setResult .success)

/-- `Sys`: nothing happens, the operand is ignored, so the whole step is `PC` + 2. -/
def Obligations.SysDoesNothing : Prop :=
  (∀ (s : State) (addr : Address), ∃ t, exec (.sys addr) s = .next t ∧ t.result = .success ∧ FrameAll s t) ∧
  (∀ (s : State) (op : Word) (addr : Address), fetch s = .ok op → decode s.cfg op = .instr (.sys addr) →
    ∃ t, step s = .next t ∧ t.result = .success ∧ t.pc.toNat = s.pc.toNat + 2 ∧ FramePc s t) ∧
  (∀ c : Config, 0x0#4 ∈ c.sysLowNibbles → decode c 0x0000#16 = .instr (.sys 0x000#12))

/-- The two immediate skips: `PC` + 2 exactly when the register equals (differs from) the immediate, nothing else
changes; a `PC` carried past the top of memory raises only at the next fetch. -/
def Obligations.ImmediateSkips : Prop :=
  ∀ (s : State) (r : RegIdx) (imm : Byte),
    (∃ t, exec (.skipIfEqVImm r imm) s = .next t ∧ t.result = .success ∧ FramePc s t ∧
      (s.getV r = imm → t.pc = s.pc + 2#16) ∧ (s.getV r ≠ imm → t.pc = s.pc) ∧
      (4096 ≤ t.pc.toNat → step t = .next (t.setResult (.error .addressOutOfBounds)))) ∧
    (∃ t, exec (.skipIfNotEqVImm r imm) s = .next t ∧ t.result = .success ∧ FramePc s t ∧
      (s.getV r ≠ imm → t.pc = s.pc + 2#16) ∧ (s.getV r = imm → t.pc = s.pc) ∧
      (4096 ≤ t.pc.toNat → step t = .next (t.setResult (.error .addressOutOfBounds))))

/-- The two register skips: `PC` + 2 exactly when the registers are equal (differ), nothing else changes; a register
compared with itself always (never) skips. -/
def Obligations.RegisterSkips : Prop :=
  ∀ (s : State) (x y : RegIdx),
    (∃ t, exec (.skipIfEqualV2 x y) s = .next t ∧ t.result = .success ∧ FramePc s t ∧
      (s.getV x = s.getV y → t.pc = s.pc + 2#16) ∧ (s.getV x ≠ s.getV y → t.pc = s.pc) ∧
      (x = y → t.pc = s.pc + 2#16)) ∧
    (∃ t, exec (.skipIfNotEqualV2 x y) s = .next t ∧ t.result = .success ∧ FramePc s t ∧
      (s.getV x ≠ s.getV y → t.pc = s.pc + 2#16) ∧ (s.getV x = s.getV y → t.pc = s.pc) ∧
      (x = y → t.pc = s.pc))

/-! ## Registers and arithmetic (spec/42_register_alu.md) -/

/-- `LoadVImm`: the immediate goes to `V[r]`, VF included as data; nothing else changes. -/
def Obligations.LoadVImmSetsRegister : Prop :=
  ∀ (s : State) (r : RegIdx) (imm : Byte),
    ∃ t, exec (.loadVImm r imm) s = .next t ∧ t.result = .success ∧ t.getV r = imm ∧ FrameRegs [r] s t

/-- `AddVImm`: the sum modulo 256 goes to `V[r]`; VF is not written unless `r` is 15, and then it holds the sum. -/
def Obligations.AddVImmWrapsSilently : Prop :=
  ∀ (s : State) (r : RegIdx) (imm : Byte),
    ∃ t, exec (.addVImm r imm) s = .next t ∧ t.result = .success ∧
      (t.getV r).toNat = ((s.getV r).toNat + imm.toNat) % 256 ∧ FrameRegs [r] s t

/-- `SetEqual`: `V[y]` goes to `V[x]`; nothing else changes. -/
def Obligations.SetEqualCopies : Prop :=
  ∀ (s : State) (x y : RegIdx),
    ∃ t, exec (.setEqual x y) s = .next t ∧ t.result = .success ∧ t.getV x = s.getV y ∧ FrameRegs [x] s t

/-- The three bitwise instructions, bit by bit; VF is not written as a flag, nothing else changes. -/
def Obligations.BitwiseResults : Prop :=
  ∀ (s : State) (x y : RegIdx),
    (∃ t, exec (.bitWiseOrEqual x y) s = .next t ∧ t.result = .success ∧ FrameRegs [x] s t ∧
      ∀ b, (t.getV x).getLsbD b = ((s.getV x).getLsbD b || (s.getV y).getLsbD b)) ∧
    (∃ t, exec (.bitWiseAndEqual x y) s = .next t ∧ t.result = .success ∧ FrameRegs [x] s t ∧
      ∀ b, (t.getV x).getLsbD b = ((s.getV x).getLsbD b && (s.getV y).getLsbD b)) ∧
    (∃ t, exec (.bitWiseXorEqual x y) s = .next t ∧ t.result = .success ∧ FrameRegs [x] s t ∧
      (∀ b, (t.getV x).getLsbD b = ((s.getV x).getLsbD b ^^ (s.getV y).getLsbD b)) ∧ (x = y → t.getV x = 0#8))

/-- `AddV2`: VF ends as the carry out of the sum, and `V[x]`, unless it is VF, as the sum modulo 256 (that the flag
wins when `x` is 15 is D4, log 8). -/
def Obligations.AddV2SumAndCarry : Prop :=
  ∀ (s : State) (x y : RegIdx),
    ∃ t, exec (.addV2 x y) s = .next t ∧ t.result = .success ∧ FrameRegs [x, vf] s t ∧
      (x ≠ vf → (t.getV x).toNat = ((s.getV x).toNat + (s.getV y).toNat) % 256) ∧
      (255 < (s.getV x).toNat + (s.getV y).toNat → t.getV vf = 1#8) ∧
      ((s.getV x).toNat + (s.getV y).toNat ≤ 255 → t.getV vf = 0#8)

/-- `SubV2`: VF ends as 1 exactly when `V[x] >= V[y]`, and `V[x]`, unless it is VF, as the difference modulo 256 (that
the flag wins when `x` is 15 is D4, log 8). -/
def Obligations.SubV2DifferenceAndNoBorrow : Prop :=
  ∀ (s : State) (x y : RegIdx),
    ∃ t, exec (.subV2 x y) s = .next t ∧ t.result = .success ∧ FrameRegs [x, vf] s t ∧
      (x ≠ vf → ((t.getV x).toNat : Int) = ((s.getV x).toNat - (s.getV y).toNat : Int) % 256) ∧
      ((s.getV y).toNat ≤ (s.getV x).toNat → t.getV vf = 1#8) ∧
      ((s.getV x).toNat < (s.getV y).toNat → t.getV vf = 0#8)

/-- `SubNV2`: VF ends as 1 exactly when `V[y] > V[x]`, strictly, and `V[x]`, unless it is VF, as `V[y] - V[x]` modulo 256
(that the flag wins when `x` is 15 is D4, log 8; the strict comparison is log 19). -/
def Obligations.SubNV2DifferenceAndStrictFlag : Prop :=
  ∀ (s : State) (x y : RegIdx),
    ∃ t, exec (.subNV2 x y) s = .next t ∧ t.result = .success ∧ FrameRegs [x, vf] s t ∧
      (x ≠ vf → ((t.getV x).toNat : Int) = ((s.getV y).toNat - (s.getV x).toNat : Int) % 256) ∧
      ((s.getV x).toNat < (s.getV y).toNat → t.getV vf = 1#8) ∧
      ((s.getV y).toNat ≤ (s.getV x).toNat → t.getV vf = 0#8)

/-- `ShiftRight` under either dialect: VF ends as bit 0 of the source, and `V[x]`, unless it is VF, as the source divided
by 2 (that the flag wins when `x` is 15 is D4, log 8). -/
def Obligations.ShiftRightBothDialects : Prop :=
  ∀ (s : State) (x y : RegIdx) (src : Byte),
    ((s.cfg.legacyShift = true ∧ src = s.getV y) ∨ (s.cfg.legacyShift = false ∧ src = s.getV x)) →
    ∃ t, exec (.shiftRight x y) s = .next t ∧ t.result = .success ∧ FrameRegs [x, vf] s t ∧
      (x ≠ vf → (t.getV x).toNat = src.toNat / 2) ∧ (t.getV vf).toNat = src.toNat % 2

/-- `ShiftLeft` under either dialect: VF ends as bit 7 of the source, and `V[x]`, unless it is VF, as twice the source
modulo 256 (that the flag wins when `x` is 15 is D4, log 8). -/
def Obligations.ShiftLeftBothDialects : Prop :=
  ∀ (s : State) (x y : RegIdx) (src : Byte),
    ((s.cfg.legacyShift = true ∧ src = s.getV y) ∨ (s.cfg.legacyShift = false ∧ src = s.getV x)) →
    ∃ t, exec (.shiftLeft x y) s = .next t ∧ t.result = .success ∧ FrameRegs [x, vf] s t ∧
      (x ≠ vf → (t.getV x).toNat = src.toNat * 2 % 256) ∧ (t.getV vf).toNat = src.toNat / 128

/-! ## The index register and memory (spec/43_index_memory.md) -/

/-- `LoadIImm`: the 12-bit immediate, zero-extended, goes to `I`; nothing else changes. -/
def Obligations.LoadIImmSetsIndex : Prop :=
  ∀ (s : State) (imm : Address),
    ∃ t, exec (.loadIImm imm) s = .next t ∧ t.result = .success ∧ t.i.toNat = imm.toNat ∧ FrameIndex s t

/-- `AddIV`: `I + V[r]` modulo 65536 goes to `I`, no flag, nothing else changes (the wrap is D5, log 9). -/
def Obligations.AddIVWrapsAt16Bits : Prop :=
  ∀ (s : State) (r : RegIdx),
    ∃ t, exec (.addIV r) s = .next t ∧ t.result = .success ∧
      t.i.toNat = (s.i.toNat + (s.getV r).toNat) % 65536 ∧ FrameIndex s t

/-- `LoadRegistersFromMem` with its whole block inside memory: `V[0]` to `V[n]` hold the bytes at `I` on, `I` and
everything else is unchanged. -/
def Obligations.LoadRegistersLoadsBlock : Prop :=
  ∀ (s : State) (n : RegIdx), s.i.toNat + n.val < 4096 →
    ∃ t, exec (.loadRegistersFromMem n) s = .next t ∧ t.result = .success ∧
      (∀ o : RegIdx, o ≤ n → t.getV o = s.mem.get (s.i.toNat + o.val)) ∧
      (∀ o : RegIdx, n < o → t.getV o = s.getV o) ∧
      t.i = s.i ∧ t.pc = s.pc ∧ KeepsMem s t ∧ t.disp = s.disp ∧ t.stack = s.stack ∧ t.cfg = s.cfg

/-- `LoadRegistersFromMem` running past the end of memory raises `AddressOutOfBounds`; the registers whose address lies
inside memory are loaded, the others and everything else unchanged (D7, log 11). -/
def Obligations.LoadRegistersPastTheEnd : Prop :=
  ∀ (s : State) (n : RegIdx), 4096 ≤ s.i.toNat + n.val →
    ∃ t, exec (.loadRegistersFromMem n) s = .next t ∧ t.result = .error .addressOutOfBounds ∧
      (∀ o : RegIdx, o ≤ n → s.i.toNat + o.val < 4096 → t.getV o = s.mem.get (s.i.toNat + o.val)) ∧
      (∀ o : RegIdx, n < o ∨ 4096 ≤ s.i.toNat + o.val → t.getV o = s.getV o) ∧
      t.i = s.i ∧ t.pc = s.pc ∧ KeepsMem s t ∧ t.disp = s.disp ∧ t.stack = s.stack ∧ t.cfg = s.cfg

/-- `SaveRegistersToMem` with its whole block inside memory: the bytes at `I` on hold `V[0]` to `V[n]`, every other byte
and everything else is unchanged. -/
def Obligations.SaveRegistersStoresBlock : Prop :=
  ∀ (s : State) (n : RegIdx), s.i.toNat + n.val < 4096 →
    ∃ t, exec (.saveRegistersToMem n) s = .next t ∧ t.result = .success ∧
      (∀ o : RegIdx, o ≤ n → t.mem.get (s.i.toNat + o.val) = s.getV o) ∧
      (∀ a, a < s.i.toNat ∨ s.i.toNat + n.val < a → t.mem.get a = s.mem.get a) ∧ FrameMem s t

/-- `SaveRegistersToMem` running past the end of memory raises `AddressOutOfBounds`; the bytes inside memory are stored,
every other byte and everything else is unchanged (D7, log 11). -/
def Obligations.SaveRegistersPastTheEnd : Prop :=
  ∀ (s : State) (n : RegIdx), 4096 ≤ s.i.toNat + n.val →
    ∃ t, exec (.saveRegistersToMem n) s = .next t ∧ t.result = .error .addressOutOfBounds ∧
      (∀ o : RegIdx, o ≤ n → s.i.toNat + o.val < 4096 → t.mem.get (s.i.toNat + o.val) = s.getV o) ∧
      (∀ a, a < s.i.toNat ∨ 4096 ≤ a → t.mem.get a = s.mem.get a) ∧ FrameMem s t

/-- `BCDRegister` with its three bytes inside memory: hundreds, tens and ones of `V[r]`, which are decimal digits of it;
every other byte and everything else is unchanged. -/
def Obligations.BCDStoresDigits : Prop :=
  ∀ (s : State) (r : RegIdx), s.i.toNat + 2 < 4096 →
    ∃ t, exec (.bcdRegister r) s = .next t ∧ t.result = .success ∧
      (t.mem.get s.i.toNat).toNat = (s.getV r).toNat / 100 ∧
      (t.mem.get (s.i.toNat + 1)).toNat = (s.getV r).toNat / 10 % 10 ∧
      (t.mem.get (s.i.toNat + 2)).toNat = (s.getV r).toNat % 10 ∧
      (∀ a, a < s.i.toNat ∨ s.i.toNat + 2 < a → t.mem.get a = s.mem.get a) ∧ FrameMem s t

/-- `BCDRegister` running past the end of memory raises `AddressOutOfBounds`: from 4094 the hundreds and tens digits are
stored, from 4095 the hundreds digit, from 4096 on nothing; all else is unchanged (D7, log 11). -/
def Obligations.BCDPastTheEnd : Prop :=
  ∀ (s : State) (r : RegIdx), 4096 ≤ s.i.toNat + 2 →
    ∃ t, exec (.bcdRegister r) s = .next t ∧ t.result = .error .addressOutOfBounds ∧ FrameMem s t ∧
      (s.i.toNat ≤ 4095 → (t.mem.get s.i.toNat).toNat = (s.getV r).toNat / 100) ∧
      (s.i.toNat = 4094 → (t.mem.get 4095).toNat = (s.getV r).toNat / 10 % 10) ∧
      (∀ a, a < s.i.toNat ∨ 4096 ≤ a → t.mem.get a = s.mem.get a)

/-! ## The display (spec/44_display.md) -/

/-- `ClearScreen`: every cell is false whatever it was, nothing else changes, and it cannot fail. -/
def Obligations.ClearScreenClears : Prop :=
  ∀ s : State, ∃ t, exec .clearScreen s = .next t ∧ t.result = .success ∧
    (∀ px py, t.disp.get px py = false) ∧ FrameDisp s t

/-- `Draw` that reads its sprite inside memory and lands every set bit on the grid: exactly the cells under set bits are
flipped, VF and everything else is unchanged (the unreduced coordinate sums are D8, log 12). -/
def Obligations.DrawFlipsTheSprite : Prop :=
  ∀ (s : State) (x y : RegIdx) (len : Fin 16), (len.val = 0 ∨ s.i.toNat + len.val ≤ 4096) →
    (∀ r, r < len.val → ∀ c, c < 8 → spriteBit s r c = true →
      (s.getV x).toNat + c < 64 ∧ (s.getV y).toNat + r < 32) →
    ∃ t, exec (.draw x y len) s = .next t ∧ t.result = .success ∧ FrameDisp s t ∧
      (∀ px py, px < 64 → py < 32 →
        (∀ r c, r < len.val → c < 8 → px = (s.getV x).toNat + c → py = (s.getV y).toNat + r →
          t.disp.get px py = (s.disp.get px py ^^ spriteBit s r c)) ∧
        ((∀ r c, r < len.val → c < 8 → ¬ (px = (s.getV x).toNat + c ∧ py = (s.getV y).toNat + r)) →
          t.disp.get px py = s.disp.get px py))

/-- `Draw` whose sprite read runs past the end of memory raises `AddressOutOfBounds` and flips nothing, even when its
pixels lie off the grid too: all reads come before any flip. -/
def Obligations.DrawReadsBeforeItFlips : Prop :=
  ∀ (s : State) (x y : RegIdx) (len : Fin 16), 0 < len.val → 4096 < s.i.toNat + len.val →
    ∃ t, exec (.draw x y len) s = .next t ∧ t.result = .error .addressOutOfBounds ∧ FrameAll s t

/-- `Draw` whose first set bit off the grid, in row-major order, is `(r₀, c₀)`: it raises `DisplayOutOfBounds`, the cells
under the set bits before it are flipped and no other, nothing wraps (D8, log 12). -/
def Obligations.DrawOffTheGrid : Prop :=
  ∀ (s : State) (x y : RegIdx) (len : Fin 16) (r₀ c₀ : Nat), s.i.toNat + len.val ≤ 4096 → r₀ < len.val → c₀ < 8 →
    spriteBit s r₀ c₀ = true → (64 ≤ (s.getV x).toNat + c₀ ∨ 32 ≤ (s.getV y).toNat + r₀) →
    (∀ r, r < len.val → ∀ c, c < 8 → bitBefore r c r₀ c₀ → spriteBit s r c = true →
      (s.getV x).toNat + c < 64 ∧ (s.getV y).toNat + r < 32) →
    ∃ t, exec (.draw x y len) s = .next t ∧ t.result = .error .displayOutOfBounds ∧ FrameDisp s t ∧
      (∀ px py, px < 64 → py < 32 →
        (∀ r c, r < len.val → c < 8 → bitBefore r c r₀ c₀ → px = (s.getV x).toNat + c → py = (s.getV y).toNat + r →
          t.disp.get px py = (s.disp.get px py ^^ spriteBit s r c)) ∧
        ((∀ r c, r < len.val → c < 8 → bitBefore r c r₀ c₀ →
            ¬ (px = (s.getV x).toNat + c ∧ py = (s.getV y).toNat + r)) →
          t.disp.get px py = s.disp.get px py))

/-- Drawing the same sprite twice at the same place restores the whole grid. -/
def Obligations.DrawTwiceRestores : Prop :=
  ∀ (s t u : State) (x y : RegIdx) (len : Fin 16), exec (.draw x y len) s = .next t → t.result = .success →
    exec (.draw x y len) t = .next u → u.result = .success ∧ u.disp = s.disp

/-! ## Whole-machine rules -/

/-- Which instruction can raise what in stage 4: no instruction raises an error that the table of 60_exceptions.md
section 1 does not give it, so twenty of the twenty-six never raise. -/
def Obligations.OnlyTheTabledErrors : Prop :=
  ∀ (i : Instr) (s t : State) (e : ExecError), exec i s = .next t → t.result = .error e → e ∈ mayRaise i

/-- The state after a step that reports an error: `I`, `STACK` and the configuration are unchanged; a fetch error
changes nothing; otherwise `PC` is 2 higher and only `LoadRegistersFromMem` can have written registers, only
`SaveRegistersToMem` and `BCDRegister` memory, only `Draw` the display (D7, D8, logs 11 and 12). -/
def Obligations.StateAfterAnError : Prop :=
  ∀ (s t : State) (e : ExecError), step s = .next t → t.result = .error e →
    t.i = s.i ∧ t.stack = s.stack ∧ t.cfg = s.cfg ∧
    ((∃ e', fetch s = .error e') → FrameAll s t) ∧
    (∀ op, fetch s = .ok op → t.pc = s.pc + 2#16 ∧
      ((∀ n, decode s.cfg op ≠ .instr (.loadRegistersFromMem n)) → KeepsRegs s t) ∧
      ((∀ i, decode s.cfg op = .instr i → ¬ writesMem i) → KeepsMem s t) ∧
      ((∀ x y len, decode s.cfg op ≠ .instr (.draw x y len)) → t.disp = s.disp))

/-- Each instruction writes no part of the state but its own: registers outside `regsWritten`, and `I`, `PC`, `MEM`,
`DISP`, `STACK` under an instruction that does not write them, are unchanged, whether it succeeds or raises. -/
def Obligations.OnlyItsOwnPartIsWritten : Prop :=
  ∀ (i : Instr) (s t : State), exec i s = .next t →
    KeepsRegsBut (regsWritten i) s t ∧ t.cfg = s.cfg ∧
    (¬ writesIndex i → t.i = s.i) ∧ (¬ writesPc i → t.pc = s.pc) ∧ (¬ writesMem i → KeepsMem s t) ∧
    (¬ writesDisp i → t.disp = s.disp) ∧ (¬ writesStack i → t.stack = s.stack)

/-- The configuration is constant: no step, no LOAD and no display access changes it. -/
def Obligations.ConfigurationIsConstant : Prop :=
  ∀ (op : HostOp) (s t : State) (r : Reply), (∀ l, op ≠ .reset l) → hostOp op s = .next (t, r) → t.cfg = s.cfg

/-- `legacy_shift` is read by the two shifts alone: under any other instruction the outcome is the same but for the flag
itself, whatever its value. -/
def Obligations.OnlyShiftsReadLegacyShift : Prop :=
  ∀ (i : Instr) (s t : State) (b : Bool), (∀ x y, i ≠ .shiftRight x y) → (∀ x y, i ≠ .shiftLeft x y) →
    exec i s = .next t →
    exec i { s with cfg := { s.cfg with legacyShift := b } } = .next { t with cfg := { t.cfg with legacyShift := b } }

/-- A later step does not see what an earlier one returned: the model's own field `result` is never read (log 2). -/
def Obligations.ResultIsNeverRead : Prop :=
  ∀ (s : State) (r : StepResult), step (s.setResult r) = step s

/-- The core never reads the display: two states that differ in the grid alone step to states that differ in the grid
alone, with the same result. -/
def Obligations.DisplayIsNeverRead : Prop :=
  ∀ (s t : State) (d : Display), step s = .next t → ∃ d', step (s.setDisp d) = .next (t.setDisp d')

/-! ## The invariant of reachable states (spec/10_state.md section 11) -/

/-- The state after RESET meets the invariant, whatever the configuration (for a finite STACK_DEPTH too). -/
def Obligations.ResetMeetsTheInvariant : Prop :=
  State.reset.Inv ∧ ∀ c : Config, (State.resetWith c).Inv

/-- Every step keeps the invariant: memory canonical and inside its 4096 bytes, `PC` at most 4098 and below 4096 when
odd, every return address even and at least 2, no more of them than a finite STACK_DEPTH allows. -/
def Obligations.StepKeepsTheInvariant : Prop :=
  ∀ s t : State, s.Inv → step s = .next t → t.Inv

/-- Every operation of the host keeps the invariant: RESET, LOAD of a program that fits or not, STEP, the display port. -/
def Obligations.HostOperationsKeepTheInvariant : Prop :=
  ∀ (op : HostOp) (s t : State) (r : Reply), s.Inv → hostOp op s = .next (t, r) → t.Inv

/-! ## Reset and the host (spec/70_reset_and_hazards.md) -/

/-- What RESET leaves, under any configuration: `PC` 0x200 and an empty stack, and by the spec's decision D10 (log 3)
zeros and a dark grid everywhere else; without a flag `legacy_shift` is false (D18, log 17). That RESET keeps STACK_DEPTH and SYS_LOW_NIBBLES, the rest of
`cfg`, is the model's choice (log 5). -/
def Obligations.ResetState : Prop :=
  (∀ c : Config, (State.resetWith c).pc = 0x200#16 ∧ (State.resetWith c).stack = [] ∧ (State.resetWith c).cfg = c ∧
    (State.resetWith c).i = 0#16 ∧ (∀ r, (State.resetWith c).getV r = 0#8) ∧
    (∀ a, (State.resetWith c).mem.get a = 0#8) ∧ (∀ px py, (State.resetWith c).disp.get px py = false)) ∧
  State.reset = State.resetWith Config.default ∧ Config.default.legacyShift = false ∧
  ∀ (s : State) (l : Option Bool), ∃ t, hostOp (.reset l) s = .next (t, .success) ∧
    t = State.resetWith { s.cfg with legacyShift := l.getD false }

/-- LOAD of at most 3584 bytes: it succeeds, the bytes read back from 0x200 on, and everything else but the configuration
is as RESET leaves it, the stack emptied too (D10, D12; logs 3 and 16). -/
def Obligations.LoadCopiesTheProgram : Prop :=
  ∀ (s : State) (p : List Byte), p.length ≤ 3584 →
    ∃ t, hostOp (.load p) s = .next (t, .success) ∧
      (∀ (k : Nat) (h : k < p.length), t.mem.get (0x200 + k) = p[k]) ∧
      (∀ a, a < 0x200 ∨ 0x200 + p.length ≤ a → t.mem.get a = 0#8) ∧
      (∀ r, t.getV r = 0#8) ∧ t.i = 0#16 ∧ t.pc = 0x200#16 ∧ (∀ px py, t.disp.get px py = false) ∧
      t.stack = [] ∧ t.cfg = s.cfg

/-- LOAD of more than 3584 bytes fails with `AddressOutOfBounds` and leaves the reset state, nothing copied (what it
leaves is D13, log 16). -/
def Obligations.LoadTooLongFails : Prop :=
  ∀ (s : State) (p : List Byte), 3584 < p.length →
    hostOp (.load p) s = .next (State.resetWith s.cfg, .error .addressOutOfBounds)

/-- The display port: inside the grid the host reads a cell, flips one and clears all; outside it both accesses are
refused with `DisplayOutOfBounds` and nothing changes (the accessors are D19, log 18). -/
def Obligations.DisplayPort : Prop :=
  ∀ (s : State) (px py : Nat),
    (px < 64 → py < 32 → hostOp (.readPixel px py) s = .next (s, .pixel (s.disp.get px py)) ∧
      ∃ t, hostOp (.flipPixel px py) s = .next (t, .success) ∧ FrameDisp s t ∧ t.result = s.result ∧
        t.disp.get px py = (!s.disp.get px py) ∧
        ∀ qx qy, ¬ (qx = px ∧ qy = py) → t.disp.get qx qy = s.disp.get qx qy) ∧
    (64 ≤ px ∨ 32 ≤ py → hostOp (.readPixel px py) s = .next (s, .error .displayOutOfBounds) ∧
      hostOp (.flipPixel px py) s = .next (s, .error .displayOutOfBounds)) ∧
    ∃ t, hostOp .clearDisplay s = .next (t, .success) ∧ FrameDisp s t ∧ t.result = s.result ∧
      ∀ qx qy, t.disp.get qx qy = false
end

