-- ==== Sys2Proof/Laws/Encoding.lean ====
section
/-! SUPPORT. The bits of the words that `encode` builds, and the fields that `decode` reads back from them. -/

namespace Sys2Proof

/-! ## Bits of a word -/

theorem wordNNN_bit (g : BitVec 4) (nnn : Address) (i : Nat) :
    (wordNNN g nnn).getLsbD i = if i < 12 then nnn.getLsbD i else g.getLsbD (i - 12) := by
  unfold wordNNN
  erw [BitVec.getLsbD_append]

theorem wordXKK_bit (g : BitVec 4) (x : RegIdx) (kk : Byte) (i : Nat) :
    (wordXKK g x kk).getLsbD i =
      if i < 8 then kk.getLsbD i else if i - 8 < 4 then (BitVec.ofFin x : BitVec 4).getLsbD (i - 8)
      else g.getLsbD (i - 8 - 4) := by
  unfold wordXKK
  erw [BitVec.getLsbD_append, BitVec.getLsbD_append]

theorem wordXYN_bit (g : BitVec 4) (x y : RegIdx) (n : BitVec 4) (i : Nat) :
    (wordXYN g x y n).getLsbD i =
      if i < 4 then n.getLsbD i else if i - 4 < 4 then (BitVec.ofFin y : BitVec 4).getLsbD (i - 4)
      else if i - 4 - 4 < 4 then (BitVec.ofFin x : BitVec 4).getLsbD (i - 4 - 4) else g.getLsbD (i - 4 - 4 - 4) := by
  unfold wordXYN
  erw [BitVec.getLsbD_append, BitVec.getLsbD_append, BitVec.getLsbD_append]

theorem wordOfBytes_bit (hi lo : Byte) (i : Nat) :
    (wordOfBytes hi lo).getLsbD i = if i < 8 then lo.getLsbD i else hi.getLsbD (i - 8) := by
  unfold wordOfBytes
  erw [BitVec.getLsbD_append]

/-! ## Fields of a word -/

@[simp] theorem opGroup_wordNNN (g : BitVec 4) (nnn : Address) : opGroup (wordNNN g nnn) = g := by
  apply BitVec.eq_of_getLsbD_eq
  intro i hi
  simp only [opGroup, BitVec.getLsbD_extractLsb', wordNNN_bit]
  interval_cases i <;> simp

@[simp] theorem opNNN_wordNNN (g : BitVec 4) (nnn : Address) : opNNN (wordNNN g nnn) = nnn := by
  apply BitVec.eq_of_getLsbD_eq
  intro i hi
  simp only [opNNN, BitVec.getLsbD_extractLsb', wordNNN_bit]
  interval_cases i <;> simp

@[simp] theorem opN_wordNNN (g : BitVec 4) (nnn : Address) : opN (wordNNN g nnn) = nnn.extractLsb' 0 4 := by
  apply BitVec.eq_of_getLsbD_eq
  intro i hi
  simp only [opN, BitVec.getLsbD_extractLsb', wordNNN_bit]
  interval_cases i <;> simp

@[simp] theorem opGroup_wordXKK (g : BitVec 4) (x : RegIdx) (kk : Byte) : opGroup (wordXKK g x kk) = g := by
  apply BitVec.eq_of_getLsbD_eq
  intro i hi
  simp only [opGroup, BitVec.getLsbD_extractLsb', wordXKK_bit]
  interval_cases i <;> simp

@[simp] theorem opX_wordXKK (g : BitVec 4) (x : RegIdx) (kk : Byte) : opX (wordXKK g x kk) = x := by
  have h : (wordXKK g x kk).extractLsb' 8 4 = BitVec.ofFin x := by
    apply BitVec.eq_of_getLsbD_eq
    intro i hi
    simp only [BitVec.getLsbD_extractLsb', wordXKK_bit]
    interval_cases i <;> simp
  simp [opX, h]

@[simp] theorem opKK_wordXKK (g : BitVec 4) (x : RegIdx) (kk : Byte) : opKK (wordXKK g x kk) = kk := by
  apply BitVec.eq_of_getLsbD_eq
  intro i hi
  simp only [opKK, BitVec.getLsbD_extractLsb', wordXKK_bit]
  interval_cases i <;> simp

@[simp] theorem opGroup_wordXYN (g : BitVec 4) (x y : RegIdx) (n : BitVec 4) : opGroup (wordXYN g x y n) = g := by
  apply BitVec.eq_of_getLsbD_eq
  intro i hi
  simp only [opGroup, BitVec.getLsbD_extractLsb', wordXYN_bit]
  interval_cases i <;> simp

@[simp] theorem opX_wordXYN (g : BitVec 4) (x y : RegIdx) (n : BitVec 4) : opX (wordXYN g x y n) = x := by
  have h : (wordXYN g x y n).extractLsb' 8 4 = BitVec.ofFin x := by
    apply BitVec.eq_of_getLsbD_eq
    intro i hi
    simp only [BitVec.getLsbD_extractLsb', wordXYN_bit]
    interval_cases i <;> simp
  simp [opX, h]

@[simp] theorem opY_wordXYN (g : BitVec 4) (x y : RegIdx) (n : BitVec 4) : opY (wordXYN g x y n) = y := by
  have h : (wordXYN g x y n).extractLsb' 4 4 = BitVec.ofFin y := by
    apply BitVec.eq_of_getLsbD_eq
    intro i hi
    simp only [BitVec.getLsbD_extractLsb', wordXYN_bit]
    interval_cases i <;> simp
  simp [opY, h]

@[simp] theorem opN_wordXYN (g : BitVec 4) (x y : RegIdx) (n : BitVec 4) : opN (wordXYN g x y n) = n := by
  apply BitVec.eq_of_getLsbD_eq
  intro i hi
  simp only [opN, BitVec.getLsbD_extractLsb', wordXYN_bit]
  interval_cases i <;> simp

/-! ## A word and its two bytes -/

@[simp] theorem highByte_wordOfBytes (hi lo : Byte) : highByte (wordOfBytes hi lo) = hi := by
  apply BitVec.eq_of_getLsbD_eq
  intro i h
  simp only [highByte, BitVec.getLsbD_extractLsb', wordOfBytes_bit]
  interval_cases i <;> simp

@[simp] theorem lowByte_wordOfBytes (hi lo : Byte) : lowByte (wordOfBytes hi lo) = lo := by
  apply BitVec.eq_of_getLsbD_eq
  intro i h
  simp only [lowByte, BitVec.getLsbD_extractLsb', wordOfBytes_bit]
  interval_cases i <;> simp

@[simp] theorem wordOfBytes_bytes (op : Word) : wordOfBytes (highByte op) (lowByte op) = op := by
  apply BitVec.eq_of_getLsbD_eq
  intro i h
  simp only [highByte, lowByte, BitVec.getLsbD_extractLsb', wordOfBytes_bit]
  interval_cases i <;> simp

/-- The bytes `encode` lays down decode as its word does. -/
theorem decodeBytes_encodeBytes (c : Config) (i : Instr) (rest : List Byte) :
    decodeBytes c (encodeBytes i ++ rest) = some (decode c (encode i), rest) := by
  simp [encodeBytes, decodeBytes]

/-! ## A word under a mask -/

theorem wordNNN_masked (g : BitVec 4) (nnn : Address) : wordNNN g nnn &&& 0xF000#16 = wordNNN g 0#12 := by
  apply BitVec.eq_of_getLsbD_eq
  intro i hi
  simp only [BitVec.getLsbD_and, wordNNN_bit]
  interval_cases i <;> simp

theorem wordXKK_masked_group (g : BitVec 4) (x : RegIdx) (kk : Byte) :
    wordXKK g x kk &&& 0xF000#16 = wordXKK g 0 0#8 := by
  apply BitVec.eq_of_getLsbD_eq
  intro i hi
  simp only [BitVec.getLsbD_and, wordXKK_bit]
  interval_cases i <;> simp

theorem wordXKK_masked (g : BitVec 4) (x : RegIdx) (kk : Byte) :
    wordXKK g x kk &&& 0xF0FF#16 = wordXKK g 0 kk := by
  apply BitVec.eq_of_getLsbD_eq
  intro i hi
  simp only [BitVec.getLsbD_and, wordXKK_bit]
  interval_cases i <;> simp

theorem wordXYN_masked_group (g : BitVec 4) (x y : RegIdx) (n : BitVec 4) :
    wordXYN g x y n &&& 0xF000#16 = wordXYN g 0 0 0#4 := by
  apply BitVec.eq_of_getLsbD_eq
  intro i hi
  simp only [BitVec.getLsbD_and, wordXYN_bit]
  interval_cases i <;> simp

theorem wordXYN_masked (g : BitVec 4) (x y : RegIdx) (n : BitVec 4) :
    wordXYN g x y n &&& 0xF00F#16 = wordXYN g 0 0 n := by
  apply BitVec.eq_of_getLsbD_eq
  intro i hi
  simp only [BitVec.getLsbD_and, wordXYN_bit]
  interval_cases i <;> simp

end Sys2Proof
end

