-- ==== Sys2Proof/Laws/Memory.lean ====
section
/-! SUPPORT. The laws of `MEM`: a read after a write, what a write leaves alone, and that every memory operation keeps
the canonical form. -/

namespace Sys2Proof.Machine

/-! ## Reads and writes of one byte -/

@[simp] theorem Memory.get_nil (a : Nat) : Memory.get [] a = 0#8 := rfl

theorem Memory.get_dropCell (m : Memory) (a b : Nat) :
    (m.dropCell a).get b = if b = a then 0#8 else m.get b := by
  induction m with
  | nil => simp [Memory.dropCell]
  | cons c rest ih =>
    obtain ⟨k, x⟩ := c
    simp only [Memory.dropCell] at ih ⊢
    by_cases hk : k = a
    · subst hk
      by_cases hb : b = k
      · subst hb; simpa using ih
      · simp [ih, hb, Memory.get, Ne.symm hb]
    · by_cases hb : b = a
      · subst hb; simp [hk, Memory.get, ih]
      · simp [hk, hb, Memory.get, ih]

theorem Memory.get_insertCell (m : Memory) (a : Nat) (x : Byte) (b : Nat) (h : ∀ c ∈ m, c.1 ≠ a) :
    (m.insertCell a x).get b = if b = a then x else m.get b := by
  induction m with
  | nil => simp [Memory.insertCell, Memory.get, eq_comm]
  | cons c rest ih =>
    obtain ⟨k, y⟩ := c
    have hk : k ≠ a := h (k, y) (by simp)
    have ih' := ih (fun c hc => h c (by simp [hc]))
    simp only [Memory.insertCell]
    split
    · by_cases hb : b = a
      · simp [Memory.get, hb]
      · simp [Memory.get, hb, Ne.symm hb]
    · by_cases hb : b = a
      · subst hb; simp [Memory.get, ih', hk]
      · simp [Memory.get, ih', hb]

theorem Memory.dropCell_ne (m : Memory) (a : Nat) : ∀ c ∈ m.dropCell a, c.1 ≠ a := by
  intro c hc
  simpa using (List.mem_filter.mp hc).2

/-- A write reads back at its own address and nowhere else, whatever form the memory is in. -/
@[simp] theorem Memory.get_set (m : Memory) (a : Nat) (x : Byte) (b : Nat) :
    (m.set a x).get b = if b = a then x else m.get b := by
  unfold Memory.set
  split
  · rename_i hx; simp [Memory.get_dropCell, hx]
  · rw [Memory.get_insertCell _ _ _ _ (Memory.dropCell_ne m a), Memory.get_dropCell]
    by_cases hb : b = a <;> simp [hb]

/-! ## The canonical form -/

theorem Memory.wf_nil : Memory.wf [] := by simp [Memory.wf]

theorem Memory.wf_dropCell (m : Memory) (a : Nat) (h : m.wf) : (m.dropCell a).wf :=
  ⟨h.1.filter _, fun c hc => h.2 c (List.mem_filter.mp hc).1⟩

theorem Memory.mem_insertCell (m : Memory) (a : Nat) (x : Byte) (c : Host.Cell) (h : c ∈ m.insertCell a x) :
    c = (a, x) ∨ c ∈ m := by
  induction m with
  | nil => simpa [Memory.insertCell] using h
  | cons d rest ih =>
    obtain ⟨k, y⟩ := d
    simp only [Memory.insertCell] at h
    split at h
    · simpa using h
    · rcases List.mem_cons.mp h with h | h
      · simp [h]
      · rcases ih h with h | h <;> simp [h]

theorem Memory.wf_insertCell (m : Memory) (a : Nat) (x : Byte) (h : m.wf) (hne : ∀ c ∈ m, c.1 ≠ a)
    (ha : a < memSize) (hx : x ≠ 0#8) : (m.insertCell a x).wf := by
  refine ⟨?_, fun c hc => ?_⟩
  · induction m with
    | nil => simp [Memory.insertCell]
    | cons d rest ih =>
      obtain ⟨k, y⟩ := d
      obtain ⟨hp, hc⟩ := h
      have hp' := List.pairwise_cons.mp hp
      have hk : k ≠ a := hne (k, y) (by simp)
      simp only [Memory.insertCell]
      split
      · rename_i hlt
        refine List.pairwise_cons.mpr ⟨fun c hc' => ?_, hp⟩
        rcases List.mem_cons.mp hc' with rfl | hc'
        · exact hlt
        · exact lt_trans hlt (hp'.1 c hc')
      · rename_i hge
        refine List.pairwise_cons.mpr ⟨fun c hc' => ?_, ih ⟨hp'.2, fun c hc' => hc c (by simp [hc'])⟩
          (fun c hc' => hne c (by simp [hc']))⟩
        rcases Memory.mem_insertCell _ _ _ _ hc' with rfl | hc'
        · show k < a; omega
        · exact hp'.1 c hc'
  · rcases Memory.mem_insertCell _ _ _ _ hc with rfl | hc
    · exact ⟨ha, hx⟩
    · exact h.2 c hc

/-- A write inside the address space keeps the canonical form. -/
theorem Memory.wf_set (m : Memory) (a : Nat) (x : Byte) (h : m.wf) (ha : a < memSize) : (m.set a x).wf := by
  unfold Memory.set
  split
  · exact Memory.wf_dropCell m a h
  · rename_i hx
    exact Memory.wf_insertCell _ _ _ (Memory.wf_dropCell m a h) (Memory.dropCell_ne m a) ha hx

/-! ## The primitives of R43 to R45 -/

theorem memRead1_eq (m : Memory) (a : Nat) :
    memRead1 m a = if a < memSize then .ok (m.get a) else .error .addressOutOfBounds := by
  unfold memRead1; split <;> split <;> first | rfl | omega

theorem memWrite1_eq (m : Memory) (a : Nat) (x : Byte) :
    memWrite1 m a x = if a < memSize then .ok (m.set a x) else .error .addressOutOfBounds := by
  unfold memWrite1; split <;> split <;> first | rfl | omega

/-- Everything a word read can do (R44). -/
theorem memRead2_cases (m : Memory) (a : Nat) :
    (memSize ≤ a ∧ memRead2 m a = .error .addressOutOfBounds) ∨
    (a < memSize ∧ a % 2 = 1 ∧ memRead2 m a = .error .addressUnaligned) ∨
    (a < memSize ∧ a % 2 = 0 ∧ memRead2 m a = .ok (wordOfBytes (m.get a) (m.get (a + 1)))) := by
  unfold memRead2
  by_cases h : memSize ≤ a
  · exact .inl ⟨h, by simp [h]⟩
  · rcases Nat.mod_two_eq_zero_or_one a with h2 | h2
    · exact .inr (.inr ⟨by omega, h2, by simp [h, h2]⟩)
    · exact .inr (.inl ⟨by omega, h2, by simp [h, h2]⟩)

/-- A write that the primitive accepts keeps the canonical form. -/
theorem memWrite1_wf (m m' : Memory) (a : Nat) (x : Byte) (h : m.wf) (hw : memWrite1 m a x = .ok m') : m'.wf := by
  rw [memWrite1_eq] at hw
  split at hw
  · rename_i ha
    cases hw
    exact Memory.wf_set m a x h ha
  · cases hw

/-- LOAD's copy: inside the address space it keeps the canonical form. -/
theorem copyBytes_wf (bs : List Byte) (m : Memory) (base : Nat) (h : m.wf) (hb : base + bs.length ≤ memSize) :
    (copyBytes m base bs).wf := by
  induction bs generalizing m base with
  | nil => exact h
  | cons b bs ih =>
    simp only [List.length_cons] at hb
    exact ih _ _ (Memory.wf_set m base b h (by omega)) (by omega)

/-- LOAD's copy: each byte reads back, every other address reads as before. -/
theorem copyBytes_get (bs : List Byte) (m : Memory) (base a : Nat) :
    (copyBytes m base bs).get a =
      if h : base ≤ a ∧ a < base + bs.length then bs[a - base]'(by omega) else m.get a := by
  induction bs generalizing m base with
  | nil => simp [copyBytes]
  | cons b bs ih =>
    simp only [copyBytes, ih, Memory.get_set, List.length_cons]
    by_cases h1 : a = base
    · subst h1
      simp
    · by_cases h2 : base + 1 ≤ a ∧ a < base + 1 + bs.length
      · have h3 : base ≤ a ∧ a < base + (bs.length + 1) := by omega
        rw [dif_pos h2, dif_pos h3]
        have : a - base = (a - (base + 1)) + 1 := by omega
        simp [this]
      · have h3 : ¬ (base ≤ a ∧ a < base + (bs.length + 1)) := by omega
        rw [dif_neg h2, dif_neg h3, if_neg h1]

end Sys2Proof.Machine
end

