-- ==== Sys2Proof/Laws/State.lean ====
section
/-! SUPPORT. The small lemmas of the state's fields and updates, so that no proof unfolds a record update. -/

namespace Sys2Proof.Machine

/-! ## One lemma per field per update -/

@[simp] theorem State.setI_v (s : State) (w : Word) : (s.setI w).v = s.v := rfl
@[simp] theorem State.setI_i (s : State) (w : Word) : (s.setI w).i = w := rfl
@[simp] theorem State.setI_pc (s : State) (w : Word) : (s.setI w).pc = s.pc := rfl
@[simp] theorem State.setI_mem (s : State) (w : Word) : (s.setI w).mem = s.mem := rfl
@[simp] theorem State.setI_disp (s : State) (w : Word) : (s.setI w).disp = s.disp := rfl
@[simp] theorem State.setI_stack (s : State) (w : Word) : (s.setI w).stack = s.stack := rfl
@[simp] theorem State.setI_cfg (s : State) (w : Word) : (s.setI w).cfg = s.cfg := rfl
@[simp] theorem State.setI_result (s : State) (w : Word) : (s.setI w).result = s.result := rfl
@[simp] theorem State.setI_getV (s : State) (w : Word) (j : RegIdx) : (s.setI w).getV j = s.getV j := rfl

@[simp] theorem State.setPc_v (s : State) (w : Word) : (s.setPc w).v = s.v := rfl
@[simp] theorem State.setPc_i (s : State) (w : Word) : (s.setPc w).i = s.i := rfl
@[simp] theorem State.setPc_pc (s : State) (w : Word) : (s.setPc w).pc = w := rfl
@[simp] theorem State.setPc_mem (s : State) (w : Word) : (s.setPc w).mem = s.mem := rfl
@[simp] theorem State.setPc_disp (s : State) (w : Word) : (s.setPc w).disp = s.disp := rfl
@[simp] theorem State.setPc_stack (s : State) (w : Word) : (s.setPc w).stack = s.stack := rfl
@[simp] theorem State.setPc_cfg (s : State) (w : Word) : (s.setPc w).cfg = s.cfg := rfl
@[simp] theorem State.setPc_result (s : State) (w : Word) : (s.setPc w).result = s.result := rfl
@[simp] theorem State.setPc_getV (s : State) (w : Word) (j : RegIdx) : (s.setPc w).getV j = s.getV j := rfl

@[simp] theorem State.setMem_v (s : State) (m : Memory) : (s.setMem m).v = s.v := rfl
@[simp] theorem State.setMem_i (s : State) (m : Memory) : (s.setMem m).i = s.i := rfl
@[simp] theorem State.setMem_pc (s : State) (m : Memory) : (s.setMem m).pc = s.pc := rfl
@[simp] theorem State.setMem_mem (s : State) (m : Memory) : (s.setMem m).mem = m := rfl
@[simp] theorem State.setMem_disp (s : State) (m : Memory) : (s.setMem m).disp = s.disp := rfl
@[simp] theorem State.setMem_stack (s : State) (m : Memory) : (s.setMem m).stack = s.stack := rfl
@[simp] theorem State.setMem_cfg (s : State) (m : Memory) : (s.setMem m).cfg = s.cfg := rfl
@[simp] theorem State.setMem_result (s : State) (m : Memory) : (s.setMem m).result = s.result := rfl
@[simp] theorem State.setMem_getV (s : State) (m : Memory) (j : RegIdx) : (s.setMem m).getV j = s.getV j := rfl

@[simp] theorem State.setDisp_v (s : State) (d : Display) : (s.setDisp d).v = s.v := rfl
@[simp] theorem State.setDisp_i (s : State) (d : Display) : (s.setDisp d).i = s.i := rfl
@[simp] theorem State.setDisp_pc (s : State) (d : Display) : (s.setDisp d).pc = s.pc := rfl
@[simp] theorem State.setDisp_mem (s : State) (d : Display) : (s.setDisp d).mem = s.mem := rfl
@[simp] theorem State.setDisp_disp (s : State) (d : Display) : (s.setDisp d).disp = d := rfl
@[simp] theorem State.setDisp_stack (s : State) (d : Display) : (s.setDisp d).stack = s.stack := rfl
@[simp] theorem State.setDisp_cfg (s : State) (d : Display) : (s.setDisp d).cfg = s.cfg := rfl
@[simp] theorem State.setDisp_result (s : State) (d : Display) : (s.setDisp d).result = s.result := rfl
@[simp] theorem State.setDisp_getV (s : State) (d : Display) (j : RegIdx) : (s.setDisp d).getV j = s.getV j := rfl

@[simp] theorem State.setStack_v (s : State) (k : List Address) : (s.setStack k).v = s.v := rfl
@[simp] theorem State.setStack_i (s : State) (k : List Address) : (s.setStack k).i = s.i := rfl
@[simp] theorem State.setStack_pc (s : State) (k : List Address) : (s.setStack k).pc = s.pc := rfl
@[simp] theorem State.setStack_mem (s : State) (k : List Address) : (s.setStack k).mem = s.mem := rfl
@[simp] theorem State.setStack_disp (s : State) (k : List Address) : (s.setStack k).disp = s.disp := rfl
@[simp] theorem State.setStack_stack (s : State) (k : List Address) : (s.setStack k).stack = k := rfl
@[simp] theorem State.setStack_cfg (s : State) (k : List Address) : (s.setStack k).cfg = s.cfg := rfl
@[simp] theorem State.setStack_result (s : State) (k : List Address) : (s.setStack k).result = s.result := rfl
@[simp] theorem State.setStack_getV (s : State) (k : List Address) (j : RegIdx) : (s.setStack k).getV j = s.getV j := rfl

@[simp] theorem State.setResult_v (s : State) (r : StepResult) : (s.setResult r).v = s.v := rfl
@[simp] theorem State.setResult_i (s : State) (r : StepResult) : (s.setResult r).i = s.i := rfl
@[simp] theorem State.setResult_pc (s : State) (r : StepResult) : (s.setResult r).pc = s.pc := rfl
@[simp] theorem State.setResult_mem (s : State) (r : StepResult) : (s.setResult r).mem = s.mem := rfl
@[simp] theorem State.setResult_disp (s : State) (r : StepResult) : (s.setResult r).disp = s.disp := rfl
@[simp] theorem State.setResult_stack (s : State) (r : StepResult) : (s.setResult r).stack = s.stack := rfl
@[simp] theorem State.setResult_cfg (s : State) (r : StepResult) : (s.setResult r).cfg = s.cfg := rfl
@[simp] theorem State.setResult_result (s : State) (r : StepResult) : (s.setResult r).result = r := rfl
@[simp] theorem State.setResult_getV (s : State) (r : StepResult) (j : RegIdx) : (s.setResult r).getV j = s.getV j := rfl

@[simp] theorem State.setV_v (s : State) (r : RegIdx) (b : Byte) : (s.setV r b).v = s.v.set r.val b r.isLt := rfl
@[simp] theorem State.setV_i (s : State) (r : RegIdx) (b : Byte) : (s.setV r b).i = s.i := rfl
@[simp] theorem State.setV_pc (s : State) (r : RegIdx) (b : Byte) : (s.setV r b).pc = s.pc := rfl
@[simp] theorem State.setV_mem (s : State) (r : RegIdx) (b : Byte) : (s.setV r b).mem = s.mem := rfl
@[simp] theorem State.setV_disp (s : State) (r : RegIdx) (b : Byte) : (s.setV r b).disp = s.disp := rfl
@[simp] theorem State.setV_stack (s : State) (r : RegIdx) (b : Byte) : (s.setV r b).stack = s.stack := rfl
@[simp] theorem State.setV_cfg (s : State) (r : RegIdx) (b : Byte) : (s.setV r b).cfg = s.cfg := rfl
@[simp] theorem State.setV_result (s : State) (r : RegIdx) (b : Byte) : (s.setV r b).result = s.result := rfl

/-- A register write reads back at its own number and nowhere else. -/
@[simp] theorem State.setV_getV (s : State) (r : RegIdx) (b : Byte) (j : RegIdx) :
    (s.setV r b).getV j = if j = r then b else s.getV j := by
  simp only [State.setV, State.getV, Vector.get_eq_getElem, Vector.getElem_set, Fin.ext_iff, eq_comm]

/-! ## The state after RESET -/

@[simp] theorem State.resetWith_getV (c : Config) (j : RegIdx) : (State.resetWith c).getV j = 0#8 := by
  simp [State.resetWith, State.getV, Vector.get_eq_getElem]

@[simp] theorem State.resetWith_i (c : Config) : (State.resetWith c).i = 0#16 := rfl
@[simp] theorem State.resetWith_pc (c : Config) : (State.resetWith c).pc = 0x200#16 := rfl
@[simp] theorem State.resetWith_mem (c : Config) : (State.resetWith c).mem = [] := rfl
@[simp] theorem State.resetWith_disp (c : Config) : (State.resetWith c).disp = Display.blank := rfl
@[simp] theorem State.resetWith_stack (c : Config) : (State.resetWith c).stack = [] := rfl
@[simp] theorem State.resetWith_cfg (c : Config) : (State.resetWith c).cfg = c := rfl
@[simp] theorem State.resetWith_result (c : Config) : (State.resetWith c).result = .success := rfl

end Sys2Proof.Machine
end

