-- ==== Sys2Proof/Laws/Ops.lean ====
section
/-! SUPPORT. One lemma per shared operation that says everything it can do: how a step ends, the block loops, the stack,
fetch and the step itself. -/

namespace Sys2Proof.Machine

/-! ## How a step ends -/

@[simp] theorem complete_eq (s : State) : complete s = .next (s.setResult .success) := rfl

@[simp] theorem raise_eq (e : ExecError) (s : State) : raise e s = .next (s.setResult (.error e)) := rfl

@[simp] theorem finish_none (s : State) : finish (s, none) = .next (s.setResult .success) := rfl

@[simp] theorem finish_some (s : State) (e : ExecError) : finish (s, some e) = .next (s.setResult (.error e)) := rfl

/-- Every end of a step is a next state, whose result is success or the error. -/
theorem finish_next (p : State × Option ExecError) :
    finish p = .next (p.1.setResult (match p.2 with | none => .success | some e => .error e)) := by
  rcases p with ⟨s, _ | e⟩ <;> rfl

/-! ## A skip, and a result with its flag -/

/-- Everything a skip can do (R94 to R97): `PC` alone, advanced or kept. -/
theorem skipWhen_eq (c : Bool) (s : State) : skipWhen c s = s.setPc (if c then nextPc s else s.pc) := by
  cases c <;> rfl

/-- What the registers hold after a result with its flag (R101): VF the flag, `V[x]` the result unless it is VF. -/
theorem writeWithFlag_getV (s : State) (x : RegIdx) (value flag : Byte) (j : RegIdx) :
    (writeWithFlag s x value flag).getV j = if j = vf then flag else if j = x then value else s.getV j := by
  simp [writeWithFlag]

/-- A result with its flag changes the general registers only. -/
theorem writeWithFlag_fields (s : State) (x : RegIdx) (value flag : Byte) :
    (writeWithFlag s x value flag).i = s.i ∧ (writeWithFlag s x value flag).pc = s.pc ∧
    (writeWithFlag s x value flag).mem = s.mem ∧ (writeWithFlag s x value flag).disp = s.disp ∧
    (writeWithFlag s x value flag).stack = s.stack ∧ (writeWithFlag s x value flag).cfg = s.cfg ∧
    (writeWithFlag s x value flag).result = s.result := ⟨rfl, rfl, rfl, rfl, rfl, rfl, rfl⟩

/-! ## The block loops -/

/-- A cell inside the address space. -/
def inMem (c : Nat × Byte) : Bool := decide (c.1 < memSize)

/-- Everything a list of stores can do: the stores before the first address outside `MEM`, in order, and the error if
there is one. -/
theorem storeAll_eq (cs : List (Nat × Byte)) (s : State) :
    storeAll cs s = (s.setMem ((cs.takeWhile inMem).foldl (fun m c => m.set c.1 c.2) s.mem),
      if cs.all inMem then none else some .addressOutOfBounds) := by
  induction cs generalizing s with
  | nil => rfl
  | cons c cs ih =>
    obtain ⟨a, x⟩ := c
    simp only [storeAll, memWrite1_eq]
    by_cases h : a < memSize
    · have hg : inMem (a, x) = true := by simp [inMem, h]
      simp only [if_pos h, ih, List.takeWhile_cons_of_pos hg, List.all_cons, hg, Bool.true_and]
      rfl
    · have hg : inMem (a, x) = false := by simp only [inMem, decide_eq_false_iff_not]; exact h
      simp only [if_neg h, List.takeWhile_cons_of_neg (by simp [hg] : ¬ inMem (a, x) = true), List.all_cons, hg,
        Bool.false_and, Bool.false_eq_true, if_false, List.foldl_nil]
      rfl

/-- Stores leave every address alone that is not one of theirs. -/
theorem foldl_set_get_other (cs : List (Nat × Byte)) (m : Memory) (a : Nat) (h : ∀ c ∈ cs, c.1 ≠ a) :
    (cs.foldl (fun m c => m.set c.1 c.2) m).get a = m.get a := by
  induction cs generalizing m with
  | nil => rfl
  | cons c cs ih =>
    rw [List.foldl_cons, ih _ (fun d hd => h d (by simp [hd])), Memory.get_set, if_neg]
    exact fun e => h c (by simp) e.symm

/-- A store whose address no later store repeats reads back. -/
theorem foldl_set_get_mem (cs : List (Nat × Byte)) (m : Memory) (c : Nat × Byte) (hc : c ∈ cs)
    (hd : (cs.map Prod.fst).Nodup) : (cs.foldl (fun m c => m.set c.1 c.2) m).get c.1 = c.2 := by
  induction cs generalizing m with
  | nil => simp at hc
  | cons d cs ih =>
    rw [List.map_cons, List.nodup_cons] at hd
    rw [List.foldl_cons]
    rcases List.mem_cons.mp hc with rfl | hc
    · rw [foldl_set_get_other _ _ _ (fun e he hne => hd.1 (List.mem_map.mpr ⟨e, he, hne⟩)), Memory.get_set, if_pos rfl]
    · exact ih _ hc hd.2

/-- Stores inside the address space keep the canonical form. -/
theorem foldl_set_wf (cs : List (Nat × Byte)) (m : Memory) (h : m.wf) (hc : ∀ c ∈ cs, c.1 < memSize) :
    (cs.foldl (fun m c => m.set c.1 c.2) m).wf := by
  induction cs generalizing m with
  | nil => exact h
  | cons c cs ih => exact ih _ (Memory.wf_set m c.1 c.2 h (hc c (by simp))) (fun d hd => hc d (by simp [hd]))

/-- A list of stores keeps the canonical form, whether or not it ends in an error. -/
theorem storeAll_wf (cs : List (Nat × Byte)) (s : State) (h : s.mem.wf) : (storeAll cs s).1.mem.wf := by
  rw [storeAll_eq]
  exact foldl_set_wf _ _ h (fun c hc => by simpa [inMem] using List.mem_takeWhile_imp hc)

/-- Everything a list of register loads can do: the loads before the first address outside `MEM`, in order, and the
error if there is one. -/
theorem loadAll_eq (base : Nat) (rs : List RegIdx) (s : State) :
    loadAll base rs s =
      ((rs.takeWhile (fun o => decide (base + o.val < memSize))).foldl (fun t o => t.setV o (s.mem.get (base + o.val))) s,
        if rs.all (fun o => decide (base + o.val < memSize)) then none else some .addressOutOfBounds) := by
  induction rs generalizing s with
  | nil => rfl
  | cons o rs ih =>
    simp only [loadAll, memRead1_eq]
    by_cases h : base + o.val < memSize
    · simp only [if_pos h, ih]
      simp [h]
    · simp [h]

/-- Register loads change the general registers only. -/
theorem foldl_setV_fields (f : RegIdx → Byte) (rs : List RegIdx) (s : State) :
    (rs.foldl (fun t o => t.setV o (f o)) s).i = s.i ∧ (rs.foldl (fun t o => t.setV o (f o)) s).pc = s.pc ∧
    (rs.foldl (fun t o => t.setV o (f o)) s).mem = s.mem ∧ (rs.foldl (fun t o => t.setV o (f o)) s).disp = s.disp ∧
    (rs.foldl (fun t o => t.setV o (f o)) s).stack = s.stack ∧ (rs.foldl (fun t o => t.setV o (f o)) s).cfg = s.cfg ∧
    (rs.foldl (fun t o => t.setV o (f o)) s).result = s.result := by
  induction rs generalizing s with
  | nil => simp
  | cons o rs ih => simpa using ih (s.setV o (f o))

/-- Register loads put its value into each listed register and leave the others alone. -/
theorem foldl_setV_getV (f : RegIdx → Byte) (rs : List RegIdx) (s : State) (j : RegIdx) :
    (rs.foldl (fun t o => t.setV o (f o)) s).getV j = if j ∈ rs then f j else s.getV j := by
  induction rs generalizing s with
  | nil => simp
  | cons o rs ih =>
    rw [List.foldl_cons, ih]
    by_cases h : j ∈ rs
    · simp [h]
    · by_cases ho : j = o
      · subst ho; simp [h]
      · simp [h, ho]

/-- Everything a run of byte reads can do (R133, phase 1). -/
theorem readBytes_eq (m : Memory) (base len : Nat) :
    readBytes m base len =
      if len = 0 ∨ base + len ≤ memSize then .ok ((List.range len).map (fun r => m.get (base + r)))
      else .error .addressOutOfBounds := by
  induction len generalizing base with
  | zero => simp [readBytes]
  | succ len ih =>
    simp only [readBytes, memRead1_eq]
    by_cases h : base < memSize
    · simp only [if_pos h, ih]
      by_cases h2 : len = 0 ∨ base + 1 + len ≤ memSize
      · rw [if_pos h2, if_pos (by omega)]
        simp [List.range_succ_eq_map, Function.comp_def, Nat.add_assoc, Nat.add_comm 1]
      · rw [if_neg h2, if_neg (by omega)]
    · rw [if_neg h, if_neg (by omega)]

/-! ## The stack -/

/-- Everything a push can do (R28). -/
theorem push_cases (c : Config) (k : List Address) (a : Nat) :
    (4095 < a ∧ push c k a = .error .addressOutOfBounds) ∨
    (a ≤ 4095 ∧ stackFull c k = true ∧ push c k a = .error .stackOverflow) ∨
    (a ≤ 4095 ∧ stackFull c k = false ∧ push c k a = .ok (BitVec.ofNat 12 a :: k)) := by
  unfold push
  by_cases h : 4095 < a
  · exact .inl ⟨h, by simp [h]⟩
  · cases hf : stackFull c k
    · exact .inr (.inr ⟨by omega, rfl, by simp [h]⟩)
    · exact .inr (.inl ⟨by omega, rfl, by simp [h]⟩)

/-- Everything a pop can do (R29). -/
theorem pop_cases (k : List Address) :
    (k = [] ∧ pop k = .error .stackUnderflow) ∨ (∃ a k', k = a :: k' ∧ pop k = .ok (a, k')) := by
  cases k with
  | nil => exact .inl ⟨rfl, rfl⟩
  | cons a k => exact .inr ⟨a, k, rfl, rfl⟩

/-! ## The step -/

/-- Everything a step can do (R80): a fetch that fails, an illegal word, or the decoded instruction's own meaning on the
state whose `PC` has advanced. -/
theorem step_cases (s : State) :
    (∃ e, fetch s = .error e ∧ step s = .next (s.setResult (.error e))) ∨
    (∃ op w, fetch s = .ok op ∧ decode s.cfg op = .unknownInstruction w ∧
      step s = .next ((advance s).setResult (.error (.unknownInstruction w)))) ∨
    (∃ op i, fetch s = .ok op ∧ decode s.cfg op = .instr i ∧ step s = exec i (advance s)) := by
  unfold step
  cases hf : fetch s with
  | error e => exact .inl ⟨e, rfl, rfl⟩
  | ok op =>
    unfold decodeAndExec
    cases hd : decode s.cfg op with
    | unknownInstruction w => exact .inr (.inl ⟨op, w, rfl, hd, by simp [advance, hd]⟩)
    | instr i => exact .inr (.inr ⟨op, i, rfl, hd, by simp [advance, hd]⟩)

end Sys2Proof.Machine
end

