-- ==== Sys2Proof/Laws/PerInstr.lean ====
section
/-! SUPPORT. The family EncodingRow: the word of every instruction lies in the instruction's own row of the opcode map
(spec/30_encoding.md R64), that is, its bits under the row's mask are the row's match. One lemma per constructor. -/

namespace Sys2Proof.Laws

/-- The word of the instruction matches its row of R64. -/
def EncodingRow.Statement (i : Instr) : Prop := encode i &&& (opcodeRow i).1 = (opcodeRow i).2

theorem EncodingRow.clearScreen : EncodingRow.Statement .clearScreen :=
  rfl

theorem EncodingRow.ret : EncodingRow.Statement .ret :=
  rfl

theorem EncodingRow.call (addr : Address) : EncodingRow.Statement (.call addr) :=
  (wordNNN_masked _ _).trans rfl

theorem EncodingRow.jumpTo (addr : Address) : EncodingRow.Statement (.jumpTo addr) :=
  (wordNNN_masked _ _).trans rfl

theorem EncodingRow.sys (addr : Address) : EncodingRow.Statement (.sys addr) :=
  (wordNNN_masked _ _).trans rfl

theorem EncodingRow.loadVImm (r : RegIdx) (imm : Byte) : EncodingRow.Statement (.loadVImm r imm) :=
  (wordXKK_masked_group _ _ _).trans rfl

theorem EncodingRow.addVImm (r : RegIdx) (imm : Byte) : EncodingRow.Statement (.addVImm r imm) :=
  (wordXKK_masked_group _ _ _).trans rfl

theorem EncodingRow.skipIfEqVImm (r : RegIdx) (imm : Byte) : EncodingRow.Statement (.skipIfEqVImm r imm) :=
  (wordXKK_masked_group _ _ _).trans rfl

theorem EncodingRow.skipIfNotEqVImm (r : RegIdx) (imm : Byte) : EncodingRow.Statement (.skipIfNotEqVImm r imm) :=
  (wordXKK_masked_group _ _ _).trans rfl

theorem EncodingRow.skipIfEqualV2 (x y : RegIdx) : EncodingRow.Statement (.skipIfEqualV2 x y) :=
  (wordXYN_masked _ _ _ _).trans rfl

theorem EncodingRow.skipIfNotEqualV2 (x y : RegIdx) : EncodingRow.Statement (.skipIfNotEqualV2 x y) :=
  (wordXYN_masked _ _ _ _).trans rfl

theorem EncodingRow.setEqual (x y : RegIdx) : EncodingRow.Statement (.setEqual x y) :=
  (wordXYN_masked _ _ _ _).trans rfl

theorem EncodingRow.bitWiseOrEqual (x y : RegIdx) : EncodingRow.Statement (.bitWiseOrEqual x y) :=
  (wordXYN_masked _ _ _ _).trans rfl

theorem EncodingRow.bitWiseAndEqual (x y : RegIdx) : EncodingRow.Statement (.bitWiseAndEqual x y) :=
  (wordXYN_masked _ _ _ _).trans rfl

theorem EncodingRow.bitWiseXorEqual (x y : RegIdx) : EncodingRow.Statement (.bitWiseXorEqual x y) :=
  (wordXYN_masked _ _ _ _).trans rfl

theorem EncodingRow.addV2 (x y : RegIdx) : EncodingRow.Statement (.addV2 x y) :=
  (wordXYN_masked _ _ _ _).trans rfl

theorem EncodingRow.subV2 (x y : RegIdx) : EncodingRow.Statement (.subV2 x y) :=
  (wordXYN_masked _ _ _ _).trans rfl

theorem EncodingRow.subNV2 (x y : RegIdx) : EncodingRow.Statement (.subNV2 x y) :=
  (wordXYN_masked _ _ _ _).trans rfl

theorem EncodingRow.shiftRight (x y : RegIdx) : EncodingRow.Statement (.shiftRight x y) :=
  (wordXYN_masked _ _ _ _).trans rfl

theorem EncodingRow.shiftLeft (x y : RegIdx) : EncodingRow.Statement (.shiftLeft x y) :=
  (wordXYN_masked _ _ _ _).trans rfl

theorem EncodingRow.loadIImm (imm : Address) : EncodingRow.Statement (.loadIImm imm) :=
  (wordNNN_masked _ _).trans rfl

theorem EncodingRow.addIV (r : RegIdx) : EncodingRow.Statement (.addIV r) :=
  (wordXKK_masked _ _ _).trans rfl

theorem EncodingRow.loadRegistersFromMem (n : RegIdx) : EncodingRow.Statement (.loadRegistersFromMem n) :=
  (wordXKK_masked _ _ _).trans rfl

theorem EncodingRow.saveRegistersToMem (n : RegIdx) : EncodingRow.Statement (.saveRegistersToMem n) :=
  (wordXKK_masked _ _ _).trans rfl

theorem EncodingRow.bcdRegister (r : RegIdx) : EncodingRow.Statement (.bcdRegister r) :=
  (wordXKK_masked _ _ _).trans rfl

theorem EncodingRow.draw (x y : RegIdx) (len : Fin 16) : EncodingRow.Statement (.draw x y len) :=
  (wordXYN_masked_group _ _ _ _).trans rfl

end Sys2Proof.Laws
end

