-- ==== Sys2Proof/Laws/Screen.lean ====
section
/-! SUPPORT. The laws of `DISP`: what the clear grid reads as, what a flip changes, everything a list of flips can do. -/

namespace Sys2Proof.Machine

@[simp] theorem Display.get_blank (px py : Nat) : Display.blank.get px py = false := by
  simp [Display.get, Display.blank]

/-- A toggle changes its own cell, when it is one of the grid, and no other. -/
theorem Display.get_toggle (d : Display) (px py qx qy : Nat) :
    (d.toggle px py).get qx qy =
      if qx = px ∧ qy = py ∧ px < dispW ∧ py < dispH then !d.get qx qy else d.get qx qy := by
  unfold Display.toggle
  by_cases h : px < dispW ∧ py < dispH
  · rw [dif_pos h]
    by_cases hq : qx < dispW ∧ qy < dispH
    · simp only [Display.get, dif_pos hq, Vector.getElem_set]
      by_cases hx : qx = px
      · subst hx
        by_cases hy : qy = py
        · subst hy; simp [h]
        · have hy' : py ≠ qy := fun e => hy e.symm
          simp [hy, hy']
      · have hx' : px ≠ qx := fun e => hx e.symm
        simp [hx, hx']
    · have : ¬ (qx = px ∧ qy = py ∧ px < dispW ∧ py < dispH) := by
        rintro ⟨rfl, rfl, h1, h2⟩; exact hq ⟨h1, h2⟩
      simp only [Display.get, dif_neg hq, if_neg this]
  · rw [dif_neg h, if_neg]
    rintro ⟨_, _, h1, h2⟩; exact h ⟨h1, h2⟩

/-- Two grids with the same cells are the same grid. -/
theorem Display.ext_get (d e : Display) (h : ∀ px py, px < dispW → py < dispH → d.get px py = e.get px py) : d = e := by
  refine Vector.ext (fun px hx => Vector.ext (fun py hy => ?_))
  have := h px py hx hy
  simpa [Display.get, hx, hy] using this

theorem flipPixel_eq (d : Display) (px py : Nat) :
    flipPixel d px py = if px < dispW ∧ py < dispH then .ok (d.toggle px py) else .error .displayOutOfBounds := by
  unfold flipPixel
  by_cases h : px < dispW ∧ py < dispH
  · rw [if_neg (by omega), if_pos h]
  · rw [if_pos (by omega), if_neg h]

/-- A coordinate inside the grid (R130). -/
def inGrid (p : Nat × Nat) : Bool := decide (p.1 < dispW ∧ p.2 < dispH)

/-- Everything a list of flips can do: the flips before the first coordinate outside the grid, and the error if there is
one. -/
theorem flipAll_eq (ps : List (Nat × Nat)) (d : Display) :
    flipAll ps d = ((ps.takeWhile inGrid).foldl (fun d p => d.toggle p.1 p.2) d,
      if ps.all inGrid then none else some .displayOutOfBounds) := by
  induction ps generalizing d with
  | nil => rfl
  | cons p ps ih =>
    obtain ⟨px, py⟩ := p
    simp only [flipAll, flipPixel_eq]
    by_cases h : px < dispW ∧ py < dispH
    · have hg : inGrid (px, py) = true := by simp [inGrid, h.1, h.2]
      simp only [if_pos h, ih, List.takeWhile_cons_of_pos hg, List.all_cons, hg, Bool.true_and, List.foldl_cons]
    · have hg : inGrid (px, py) = false := by simp only [inGrid, decide_eq_false_iff_not]; exact h
      simp [h, hg]

/-- Toggling a list of cells of the grid: a cell is flipped as often as it occurs. -/
theorem foldl_toggle_get (ps : List (Nat × Nat)) (d : Display) (qx qy : Nat) (hq : qx < dispW ∧ qy < dispH) :
    (ps.foldl (fun d p => d.toggle p.1 p.2) d).get qx qy = (d.get qx qy ^^ decide (ps.count (qx, qy) % 2 = 1)) := by
  induction ps generalizing d with
  | nil => simp
  | cons p ps ih =>
    obtain ⟨px, py⟩ := p
    rw [List.foldl_cons, ih, Display.get_toggle]
    by_cases h : qx = px ∧ qy = py
    · obtain ⟨rfl, rfl⟩ := h
      rw [if_pos ⟨rfl, rfl, hq.1, hq.2⟩, List.count_cons_self]
      rcases Nat.mod_two_eq_zero_or_one (ps.count (qx, qy)) with e | e
      · have : (ps.count (qx, qy) + 1) % 2 = 1 := by omega
        simp [e, this]
      · have : (ps.count (qx, qy) + 1) % 2 = 0 := by omega
        simp [e, this]
    · have hne : (px, py) ≠ (qx, qy) := by
        rintro e; cases e; exact h ⟨rfl, rfl⟩
      rw [if_neg (fun e => h ⟨e.1, e.2.1⟩), List.count_cons_of_ne hne]

end Sys2Proof.Machine
end

