-- ==== Sys2Proof/Machine/Text.lean ====
section
/-! DEFINITION. The textual syntax in which the spec writes an instruction (spec/30_encoding.md R73, the spec's decision
D17): the variant's name and its operands in parentheses. It carries no meaning; no step uses it. -/

namespace Sys2Proof.Machine

/-- One hexadecimal digit. -/
def hexDigit (d : Fin 16) : String :=
  ["0", "1", "2", "3", "4", "5", "6", "7", "8", "9", "A", "B", "C", "D", "E", "F"].get d

/-- A nibble of a value, as a hexadecimal digit. -/
def nibbleText (n k : Nat) : String := hexDigit (BitVec.ofNat 4 (n / 16 ^ k)).toFin

/-- A byte as a number, in hexadecimal (log 25). -/
def byteText (b : Byte) : String := "0x" ++ nibbleText b.toNat 1 ++ nibbleText b.toNat 0

/-- An Address as a number, in hexadecimal (log 25). -/
def addressText (a : Address) : String :=
  "0x" ++ nibbleText a.toNat 2 ++ nibbleText a.toNat 1 ++ nibbleText a.toNat 0

/-- A register operand: `V` and a hexadecimal digit. -/
def regText (r : RegIdx) : String := "V" ++ hexDigit r

/-- A count of 0 to 15 as a number, in decimal (log 25). -/
def countText (n : Fin 16) : String :=
  ["0", "1", "2", "3", "4", "5", "6", "7", "8", "9", "10", "11", "12", "13", "14", "15"].get n

/-- A name with one operand. -/
def text1 (name a : String) : String := name ++ "(" ++ a ++ ")"

/-- A name with two operands. -/
def text2 (name a b : String) : String := name ++ "(" ++ a ++ ", " ++ b ++ ")"

/-- A data byte that is not an instruction. -/
def dataText (b : Byte) : String := ".byte " ++ byteText b

/-- An instruction as the spec writes it. -/
def instrText : Instr → String
  | .clearScreen => "ClearScreen"
  | .ret => "Return"
  | .call addr => text1 "Call" (addressText addr)
  | .jumpTo addr => text1 "JumpTo" (addressText addr)
  | .sys addr => text1 "Sys" (addressText addr)
  | .loadVImm r imm => text2 "LoadVImm" (regText r) (byteText imm)
  | .addVImm r imm => text2 "AddVImm" (regText r) (byteText imm)
  | .skipIfEqVImm r imm => text2 "SkipIfEqVImm" (regText r) (byteText imm)
  | .skipIfNotEqVImm r imm => text2 "SkipIfNotEqVImm" (regText r) (byteText imm)
  | .skipIfEqualV2 x y => text2 "SkipIfEqualV2" (regText x) (regText y)
  | .skipIfNotEqualV2 x y => text2 "SkipIfNotEqualV2" (regText x) (regText y)
  | .setEqual x y => text2 "SetEqual" (regText x) (regText y)
  | .bitWiseOrEqual x y => text2 "BitWiseOrEqual" (regText x) (regText y)
  | .bitWiseAndEqual x y => text2 "BitWiseAndEqual" (regText x) (regText y)
  | .bitWiseXorEqual x y => text2 "BitWiseXorEqual" (regText x) (regText y)
  | .addV2 x y => text2 "AddV2" (regText x) (regText y)
  | .subV2 x y => text2 "SubV2" (regText x) (regText y)
  | .subNV2 x y => text2 "SubNV2" (regText x) (regText y)
  | .shiftRight x y => text2 "ShiftRight" (regText x) (regText y)
  | .shiftLeft x y => text2 "ShiftLeft" (regText x) (regText y)
  | .loadIImm imm => text1 "LoadIImm" (addressText imm)
  | .addIV r => text1 "AddIV" (regText r)
  | .loadRegistersFromMem n => text1 "LoadRegistersFromMem" (countText n)
  | .saveRegistersToMem n => text1 "SaveRegistersToMem" (countText n)
  | .bcdRegister r => text1 "BCDRegister" (regText r)
  | .draw x y len => text1 "Draw" (regText x ++ ", " ++ regText y ++ ", " ++ countText len)

end Sys2Proof.Machine
end

