-- ==== Sys2Proof/Tests/Slice0.lean ====
section
/-! SUPPORT. The model's own tests. Every expected value is taken from the spec: the words and the vectors (S, T, K, A,
M, P, L, E) of spec/95_test_vectors.md, named in each comment, or a hand calculation from the rule named there. After
them stand the witnesses: states and operands that meet the hypotheses of the statements in
Certificates/Slice0/Obligations.lean. -/

namespace Sys2Proof.Tests

open Sys2Proof Sys2Proof.Machine

/-! ## Helpers -/

/-- The reset state with one word at 0x200, where the next step fetches it. -/
def boot (op : Word) : State := State.reset.withFetchWord 16 op.toNat

/-- The reset state with `PC` at an address and one word there. -/
def bootAt (pc op : Word) : State :=
  (State.reset.setMem (copyBytes [] pc.toNat [highByte op, lowByte op])).setPc pc

/-- Bytes put in memory. -/
def poke (s : State) (a : Nat) (bs : List Byte) : State := s.setMem (copyBytes s.mem a bs)

/-- The same state in a core of another configuration. -/
def withCfg (s : State) (c : Config) : State := { s with cfg := c }

/-- The configuration with `legacy_shift` true (R30). -/
def legacy : Config := { Config.default with legacyShift := true }

/-- The configuration with a finite STACK_DEPTH (R7). -/
def depth (d : Nat) : Config := { Config.default with stackDepth := some d }

/-- The configuration of one of R7's alternatives: group 0 decodes to `Sys` for low nibble 0 only. -/
def sysZeroOnly : Config := { Config.default with sysLowNibbles := [0x0#4] }

/-- The outcome is a next state of which `p` holds. -/
def next (o : Host.Outcome State Fault Refusal) (p : State → Bool) : Bool :=
  match o with
  | .next t => p t
  | .fault _ => false
  | .refused _ => false

/-- Two registers, `PC` and the result, in one comparison. -/
def alu (x : Byte) (f : Byte) (t : State) : Bool :=
  decide (t.getV 1 = x ∧ t.getV 15 = f ∧ t.pc = 0x202#16 ∧ t.result = .success)

/-- `PC` and the result. -/
def endsAt (pc : Word) (r : StepResult) (t : State) : Bool := decide (t.pc = pc ∧ t.result = r)

/-! ## WellFormed: an ill-formed term for each check (R63, R65) -/

theorem test_wellFormed_refuses_first_literal : WellFormed Config.default (.sys 0x0E0#12) = false := by decide
theorem test_wellFormed_refuses_second_literal : WellFormed Config.default (.sys 0x0EE#12) = false := by decide
theorem test_wellFormed_refuses_nibble : WellFormed sysZeroOnly (.sys 0x123#12) = false := by decide
theorem test_wellFormed_accepts_sys : WellFormed Config.default (.sys 0x0E1#12) = true ∧
    WellFormed sysZeroOnly (.sys 0x120#12) = true := by decide

/-! ## Decode: one word per constructor, written out from section 2 of the vectors -/

theorem test_decode_clearScreen : decodeTableWord 16 0x00E0 = some .clearScreen := by decide
theorem test_decode_ret : decodeTableWord 16 0x00EE = some .ret := by decide
theorem test_decode_call : decodeTableWord 16 0x2ABC = some (.call 0xABC#12) := by decide
theorem test_decode_jumpTo : decodeTableWord 16 0x1FFF = some (.jumpTo 0xFFF#12) := by decide
theorem test_decode_sys : decodeTableWord 16 0x00EF = some (.sys 0x0EF#12) := by decide
theorem test_decode_loadVImm : decodeTableWord 16 0x6BFF = some (.loadVImm 11 0xFF#8) := by decide
theorem test_decode_addVImm : decodeTableWord 16 0x7001 = some (.addVImm 0 0x01#8) := by decide
theorem test_decode_skipIfEqVImm : decodeTableWord 16 0x3A7F = some (.skipIfEqVImm 10 0x7F#8) := by decide
theorem test_decode_skipIfNotEqVImm : decodeTableWord 16 0x4F00 = some (.skipIfNotEqVImm 15 0x00#8) := by decide
theorem test_decode_skipIfEqualV2 : decodeTableWord 16 0x5120 = some (.skipIfEqualV2 1 2) := by decide
theorem test_decode_skipIfNotEqualV2 : decodeTableWord 16 0x9AB0 = some (.skipIfNotEqualV2 10 11) := by decide
theorem test_decode_setEqual : decodeTableWord 16 0x8AB0 = some (.setEqual 10 11) := by decide
theorem test_decode_bitWiseOrEqual : decodeTableWord 16 0x8AB1 = some (.bitWiseOrEqual 10 11) := by decide
theorem test_decode_bitWiseAndEqual : decodeTableWord 16 0x8AB2 = some (.bitWiseAndEqual 10 11) := by decide
theorem test_decode_bitWiseXorEqual : decodeTableWord 16 0x8AB3 = some (.bitWiseXorEqual 10 11) := by decide
theorem test_decode_addV2 : decodeTableWord 16 0x8AB4 = some (.addV2 10 11) := by decide
theorem test_decode_subV2 : decodeTableWord 16 0x8AB5 = some (.subV2 10 11) := by decide
theorem test_decode_subNV2 : decodeTableWord 16 0x8AB7 = some (.subNV2 10 11) := by decide
theorem test_decode_shiftRight : decodeTableWord 16 0x8AB6 = some (.shiftRight 10 11) := by decide
theorem test_decode_shiftLeft : decodeTableWord 16 0x8ABE = some (.shiftLeft 10 11) := by decide
theorem test_decode_loadIImm : decodeTableWord 16 0xA123 = some (.loadIImm 0x123#12) := by decide
theorem test_decode_addIV : decodeTableWord 16 0xF11E = some (.addIV 1) := by decide
theorem test_decode_loadRegistersFromMem : decodeTableWord 16 0xFF65 = some (.loadRegistersFromMem 15) := by decide
theorem test_decode_saveRegistersToMem : decodeTableWord 16 0xF155 = some (.saveRegistersToMem 1) := by decide
theorem test_decode_bcdRegister : decodeTableWord 16 0xF133 = some (.bcdRegister 1) := by decide
theorem test_decode_draw : decodeTableWord 16 0xD125 = some (.draw 1 2 5) := by decide

/-- The word is rejected with its own bits. -/
def rejected (op : Word) : Bool := decide (decode Config.default op = .unknownInstruction op)

/-- The illegal words of section 2 in groups 5, 8 and 9 (R66, R67, R70). -/
theorem test_decode_rejects_5_8_9 : ([0x5121#16, 0x512F#16, 0x8AB8#16, 0x8AB9#16, 0x8ABA#16, 0x8ABB#16, 0x8ABC#16,
    0x8ABD#16, 0x8ABF#16, 0x9AB1#16] : List Word).all rejected = true := by decide
/-- The whole groups B, C and E (R70). -/
theorem test_decode_rejects_B_C_E :
    ([0xB123#16, 0xC0FF#16, 0xE19E#16, 0xE1A1#16] : List Word).all rejected = true := by decide
/-- Group F: the canonical timer, key and font words, and words that share a nibble with a legal one (R68). -/
theorem test_decode_rejects_F : ([0xF107#16, 0xF10A#16, 0xF115#16, 0xF118#16, 0xF129#16, 0xF100#16, 0xF105#16,
    0xF10E#16, 0xF103#16, 0xF175#16, 0xF1FF#16, 0xFFFF#16] : List Word).all rejected = true := by decide

/-- The 25 rows of R64 other than `Sys` do not overlap: no word belongs to two of them. -/
theorem test_opcode_rows_disjoint : ([.clearScreen, .ret, .call 0, .jumpTo 0, .loadVImm 0 0, .addVImm 0 0,
    .skipIfEqVImm 0 0, .skipIfNotEqVImm 0 0, .skipIfEqualV2 0 0, .skipIfNotEqualV2 0 0, .setEqual 0 0,
    .bitWiseOrEqual 0 0, .bitWiseAndEqual 0 0, .bitWiseXorEqual 0 0, .addV2 0 0, .subV2 0 0, .subNV2 0 0,
    .shiftRight 0 0, .shiftLeft 0 0, .loadIImm 0, .addIV 0, .loadRegistersFromMem 0, .saveRegistersToMem 0,
    .bcdRegister 0, .draw 0 0 0] : List Instr).Pairwise (fun a b =>
      (opcodeRow a).2 &&& (opcodeRow a).1 &&& (opcodeRow b).1 ≠ (opcodeRow b).2 &&& (opcodeRow b).1 &&& (opcodeRow a).1) := by
  decide

/-! ## Fetch and the step -/

/-- T1: the first byte is the high byte. -/
theorem test_step_bigEndian : next (step (boot 0x1234#16)) (endsAt 0x234#16 .success) = true := by decide
/-- T3, E1: an odd `PC`. -/
theorem test_step_oddPc : next (step (State.reset.setPc 0x201#16)) (endsAt 0x201#16 (.error .addressUnaligned)) = true := by
  decide
/-- T4, T5: the two edges of fetch. -/
theorem test_step_topOfMemory :
    next (step (State.reset.setPc 0xFFF#16)) (endsAt 0xFFF#16 (.error .addressUnaligned)) = true ∧
    next (step (State.reset.setPc 0x1000#16)) (endsAt 0x1000#16 (.error .addressOutOfBounds)) = true := by decide
/-- T7: an instruction at the last even address runs. -/
theorem test_step_lastWord : next (step (bootAt 0xFFE#16 0x6001#16))
    (fun t => endsAt 0x1000#16 .success t && t.getV 0 == 1#8) = true := by decide
/-- T9, E4: an illegal word. -/
theorem test_step_illegal :
    next (step (boot 0xE0A1#16)) (endsAt 0x202#16 (.error (.unknownInstruction 0xE0A1#16))) = true := by decide

/-- `withFetchWord` at a `PC` that can fetch, and the fallback to 0x200 at one that cannot (log 20). -/
theorem test_withFetchWord :
    next (step ((State.reset.setPc 0xFFE#16).withFetchWord 16 0x6007)) (fun t => endsAt 0x1000#16 .success t && t.getV 0 == 7#8)
      = true ∧
    next (step ((State.reset.setPc 0x1002#16).withFetchWord 16 0x6007)) (fun t => endsAt 0x202#16 .success t && t.getV 0 == 7#8)
      = true := by decide

/-! ## Control transfer -/

/-- K6: the newest entry first. -/
theorem test_ret : next (step ((boot 0x00EE#16).setStack [0x302#12, 0x202#12]))
    (fun t => endsAt 0x302#16 .success t && t.stack == [0x202#12]) = true := by decide
/-- S9c: an empty stack. -/
theorem test_ret_underflow : next (step (boot 0x00EE#16))
    (fun t => endsAt 0x202#16 (.error .stackUnderflow) t && t.stack == []) = true := by decide
/-- K5. -/
theorem test_call : next (step (boot 0x220A#16))
    (fun t => endsAt 0x20A#16 .success t && t.stack == [0x202#12]) = true := by decide
/-- K7, E2: a return address of 4096 is refused, before the check of depth. -/
theorem test_call_refused : next (step (withCfg (bootAt 0xFFE#16 0x2200#16) (depth 0)))
    (fun t => endsAt 0x1000#16 (.error .addressOutOfBounds) t && t.stack == []) = true := by decide
/-- K8, with a depth of 1. -/
theorem test_call_overflow : next (step ((withCfg (boot 0x2300#16) (depth 1)).setStack [0x202#12]))
    (fun t => endsAt 0x202#16 (.error .stackOverflow) t && t.stack == [0x202#12]) = true := by decide
/-- K3: an odd target is accepted. -/
theorem test_jumpTo : next (step (boot 0x1201#16)) (endsAt 0x201#16 .success) = true := by decide
/-- K11. -/
theorem test_sys : next (step (boot 0x0123#16)) (endsAt 0x202#16 .success) = true := by decide
/-- K12, K13. -/
theorem test_skipIfEqVImm : next (step ((boot 0x332A#16).setV 3 0x2A#8)) (endsAt 0x204#16 .success) = true ∧
    next (step ((boot 0x332A#16).setV 3 0x2B#8)) (endsAt 0x202#16 .success) = true := by decide
/-- K24: a skip at the top of memory. -/
theorem test_skip_pastTheEnd : next (step (bootAt 0xFFE#16 0x3000#16)) (endsAt 0x1002#16 .success) = true := by decide
/-- K14, K15. -/
theorem test_skipIfNotEqVImm : next (step ((boot 0x432A#16).setV 3 0x2A#8)) (endsAt 0x202#16 .success) = true ∧
    next (step (boot 0x432A#16)) (endsAt 0x204#16 .success) = true := by decide
/-- K16, K17. -/
theorem test_skipIfEqualV2 : next (step (((boot 0x5120#16).setV 1 7#8).setV 2 7#8)) (endsAt 0x204#16 .success) = true ∧
    next (step (((boot 0x5120#16).setV 1 7#8).setV 2 8#8)) (endsAt 0x202#16 .success) = true := by decide
/-- K18, K19. -/
theorem test_skipIfNotEqualV2 :
    next (step (((boot 0x9120#16).setV 1 7#8).setV 2 8#8)) (endsAt 0x204#16 .success) = true ∧
    next (step (((boot 0x9120#16).setV 1 7#8).setV 2 7#8)) (endsAt 0x202#16 .success) = true := by decide

/-! ## Registers and arithmetic -/

/-- A2: VF as data. -/
theorem test_loadVImm : next (step (boot 0x6FFF#16)) (alu 0#8 0xFF#8) = true := by decide
/-- A3: no flag. -/
theorem test_addVImm : next (step (((boot 0x71FF#16).setV 1 5#8).setV 15 0x55#8)) (alu 4#8 0x55#8) = true := by decide
/-- A7: the sum as data in VF. -/
theorem test_addVImm_vf : next (step ((boot 0x7F01#16).setV 15 0xFF#8)) (alu 0#8 0#8) = true := by decide
/-- A8. -/
theorem test_setEqual : next (step ((boot 0x8120#16).setV 2 0x33#8)) (alu 0x33#8 0#8) = true := by decide
/-- A10. -/
theorem test_bitWiseOrEqual :
    next (step ((((boot 0x8121#16).setV 1 0xCA#8).setV 2 0xA5#8).setV 15 0x55#8)) (alu 0xEF#8 0x55#8) = true := by decide
/-- A11. -/
theorem test_bitWiseAndEqual :
    next (step ((((boot 0x8122#16).setV 1 0xCA#8).setV 2 0xA5#8).setV 15 0x55#8)) (alu 0x80#8 0x55#8) = true := by decide
/-- A12. -/
theorem test_bitWiseXorEqual :
    next (step ((((boot 0x8123#16).setV 1 0xCA#8).setV 2 0xA5#8).setV 15 0x55#8)) (alu 0x6F#8 0x55#8) = true := by decide
/-- S6, A20. -/
theorem test_addV2 : next (step (((boot 0x8124#16).setV 1 250#8).setV 2 10#8)) (alu 4#8 1#8) = true := by decide
/-- A26: the flag wins in VF. -/
theorem test_addV2_vf : next (step (((boot 0x8F14#16).setV 15 0xFA#8).setV 1 0x0A#8)) (alu 0x0A#8 1#8) = true := by decide
/-- S7, A30. -/
theorem test_subV2 : next (step (((boot 0x8125#16).setV 1 5#8).setV 2 10#8)) (alu 251#8 0#8) = true := by decide
/-- A32: equal, no borrow. -/
theorem test_subV2_equal : next (step (((boot 0x8125#16).setV 1 7#8).setV 2 7#8)) (alu 0#8 1#8) = true := by decide
/-- A40. -/
theorem test_subNV2 : next (step (((boot 0x8127#16).setV 1 5#8).setV 2 10#8)) (alu 5#8 1#8) = true := by decide
/-- A42: equal, the strict comparison fails. -/
theorem test_subNV2_equal : next (step (((boot 0x8127#16).setV 1 7#8).setV 2 7#8)) (alu 0#8 0#8) = true := by decide
/-- A52: a logical shift of `V[x]`. -/
theorem test_shiftRight : next (step ((boot 0x8126#16).setV 1 0xFF#8)) (alu 0x7F#8 1#8) = true := by decide
/-- S8, A55: the legacy dialect reads `V[y]`. -/
theorem test_shiftRight_legacy :
    next (step (withCfg (((boot 0x8126#16).setV 1 0xF0#8).setV 2 3#8) legacy)) (alu 1#8 1#8) = true := by decide
/-- A61. -/
theorem test_shiftLeft : next (step ((boot 0x812E#16).setV 1 0xC1#8)) (alu 0x82#8 1#8) = true := by decide
/-- A66: the legacy dialect reads `V[y]`. -/
theorem test_shiftLeft_legacy :
    next (step (withCfg (((boot 0x812E#16).setV 1 0xFF#8).setV 2 0x21#8) legacy)) (alu 0x42#8 0#8) = true := by decide

/-! ## The index register and memory -/

/-- M3. -/
theorem test_loadIImm : next (step (boot 0xAFFF#16)) (fun t => t.i == 0x0FFF#16) = true := by decide
/-- M6: no reduction at 4096. -/
theorem test_addIV : next (step (((boot 0xF21E#16).setI 0x0FFF#16).setV 2 0xFF#8)) (fun t => t.i == 0x10FE#16) = true := by
  decide
/-- M7: the wrap at 65536, no flag. -/
theorem test_addIV_wraps : next (step (((boot 0xF21E#16).setI 0xFFFF#16).setV 2 2#8))
    (fun t => t.i == 0x0001#16 && t.getV 15 == 0#8) = true := by decide
/-- M10: the block holds register 0 and stops there. -/
theorem test_loadRegistersFromMem : next (step (poke (((boot 0xF065#16).setI 0x300#16).setV 1 0x77#8) 0x300 [9#8, 8#8]))
    (fun t => t.getV 0 == 9#8 && t.getV 1 == 0x77#8 && t.i == 0x300#16) = true := by decide
/-- M13: loads before the failure stay. -/
theorem test_loadRegistersFromMem_end :
    next (step (poke (((boot 0xF365#16).setI 0xFFE#16).setV 2 0x77#8) 0xFFE [0x11#8, 0x22#8]))
      (fun t => endsAt 0x202#16 (.error .addressOutOfBounds) t && t.getV 0 == 0x11#8 && t.getV 1 == 0x22#8 &&
        t.getV 2 == 0x77#8) = true := by decide
/-- M16. -/
theorem test_saveRegistersToMem :
    next (step ((((boot 0xF155#16).setI 0x208#16).setV 0 0x65#8).setV 1 0x2A#8))
      (fun t => t.mem.get 0x208 == 0x65#8 && t.mem.get 0x209 == 0x2A#8 && t.mem.get 0x20A == 0#8) = true := by decide
/-- M19: the store before the failure stays. -/
theorem test_saveRegistersToMem_end :
    next (step ((((boot 0xF155#16).setI 0xFFF#16).setV 0 0xAB#8).setV 1 0xCD#8))
      (fun t => endsAt 0x202#16 (.error .addressOutOfBounds) t && t.mem.get 0xFFF == 0xAB#8 && t.mem.get 0x1000 == 0#8)
      = true := by decide
/-- M21. -/
theorem test_bcdRegister : next (step (((boot 0xF033#16).setI 0x300#16).setV 0 254#8))
    (fun t => t.mem.get 0x300 == 2#8 && t.mem.get 0x301 == 5#8 && t.mem.get 0x302 == 4#8) = true := by decide
/-- M29. -/
theorem test_bcdRegister_end : next (step (((boot 0xF033#16).setI 0xFFE#16).setV 0 123#8))
    (fun t => endsAt 0x202#16 (.error .addressOutOfBounds) t && t.mem.get 0xFFE == 1#8 && t.mem.get 0xFFF == 2#8)
    = true := by decide

/-! ## The display -/

/-- The cells of a list, in their order. -/
def cells (t : State) (ps : List (Nat × Nat)) : List Bool := ps.map (fun p => t.disp.get p.1 p.2)

/-- P25. -/
theorem test_clearScreen : next (step ((boot 0x00E0#16).setDisp (Display.blank.toggle 63 31)))
    (fun t => endsAt 0x202#16 .success t && !t.disp.get 63 31) = true := by decide
/-- S10, P7: bit 7 is column 0, a lit cell goes dark, VF is kept. -/
theorem test_draw : next (step ((poke (((boot 0xD011#16).setI 0x300#16).setV 0 10#8) 0x300 [0xA0#8]).setDisp
    (Display.blank.toggle 10 0))) (fun t => endsAt 0x202#16 .success t && t.getV 15 == 0#8 &&
      cells t [(9, 0), (10, 0), (11, 0), (12, 0), (13, 0), (12, 1)] == [false, false, false, true, false, false]) = true := by
  decide
/-- P13: the flip before the failure stays, nothing wraps. -/
theorem test_draw_offTheGrid :
    next (step (poke ((((boot 0xD011#16).setI 0x300#16).setV 0 63#8).setV 1 5#8) 0x300 [0xC0#8]))
      (fun t => endsAt 0x202#16 (.error .displayOutOfBounds) t && cells t [(63, 5), (0, 5), (0, 6)] == [true, false, false])
      = true := by decide

/-! ## RESET, LOAD and the display port -/

/-- L3. -/
theorem test_load : (load [0x12#8, 0x34#8, 0x56#8] (State.reset.setV 3 9#8)).1.mem =
    [(0x200, 0x12#8), (0x201, 0x34#8), (0x202, 0x56#8)] := by decide
/-- L2: `legacy_shift` is what RESET is given. -/
theorem test_reset_flag : (hostReset (some true) State.reset).cfg.legacyShift = true ∧
    (hostReset none (withCfg State.reset legacy)).cfg.legacyShift = false := by decide
/-- The host port's example of section 7. -/
theorem test_readPixel : hostReadPixel 10 0 (State.reset.setDisp (Display.blank.toggle 10 0)) = .pixel true ∧
    hostReadPixel 64 0 State.reset = .error .displayOutOfBounds := by decide
/-- D16: the jump to itself ends a run. -/
theorem test_endOfRun : endOfRun (boot 0x1200#16) = true ∧ endOfRun (boot 0x1202#16) = false := by decide
/-- The codes of R140. -/
theorem test_codes : StepResult.code .success = 0 ∧ StepResult.code (.error .addressOutOfBounds) = 1 ∧
    StepResult.code (.error .addressUnaligned) = 2 ∧ StepResult.code (.error (.unknownInstruction 0xFFFF#16)) = 3 ∧
    StepResult.code (.error .stackUnderflow) = 4 ∧ StepResult.code (.error .displayOutOfBounds) = 5 ∧
    StepResult.code (.error .stackOverflow) = 6 := by decide
/-- The examples of R73. -/
theorem test_text : instrText (.loadVImm 3 0x2A#8) = "LoadVImm(V3, 0x2A)" ∧ instrText (.draw 0 1 5) = "Draw(V0, V1, 5)" ∧
    instrText (.jumpTo 0x204#12) = "JumpTo(0x204)" ∧ instrText (.loadRegistersFromMem 2) = "LoadRegistersFromMem(2)" := by
  decide

/-! ## Witnesses: encoding and the step -/

theorem witness_DecodeOfEncode : WellFormed Config.default (.sys 0xFFF#12) = true ∧
    WellFormed sysZeroOnly (.sys 0xFF0#12) = true ∧ WellFormed Config.default (.draw 15 15 15) = true := by decide
theorem witness_EncodeOfDecode : decode Config.default 0xDFFF#16 = .instr (.draw 15 15 15) ∧
    decode Config.default 0x0FFF#16 = .instr (.sys 0xFFF#12) := by decide
theorem witness_IllegalWordsAreTheTable : decode sysZeroOnly 0x0001#16 = .unknownInstruction 0x0001#16 ∧
    decode Config.default 0xFFFF#16 = .unknownInstruction 0xFFFF#16 := by decide
theorem witness_StepRunsTheDecodedInstruction :
    fetch (State.reset.setPc 0x1000#16) = .error .addressOutOfBounds ∧
    fetch (State.reset.setPc 0xFFF#16) = .error .addressUnaligned ∧
    (fetch (bootAt 0xFFE#16 0xFFFF#16) = .ok 0xFFFF#16 ∧
      decode (bootAt 0xFFE#16 0xFFFF#16).cfg 0xFFFF#16 = .unknownInstruction 0xFFFF#16) ∧
    (fetch (boot 0x8124#16) = .ok 0x8124#16 ∧ decode (boot 0x8124#16).cfg 0x8124#16 = .instr (.addV2 1 2)) :=
  ⟨rfl, rfl, ⟨rfl, rfl⟩, rfl, rfl⟩
theorem witness_FetchIsBigEndian : (bootAt 0xFFE#16 0x1234#16).pc.toNat % 2 = 0 ∧
    (bootAt 0xFFE#16 0x1234#16).pc.toNat ≤ 4094 ∧ fetch (bootAt 0xFFE#16 0x1234#16) = .ok 0x1234#16 :=
  ⟨by decide, by decide, rfl⟩
theorem witness_FailedFetchIsStuck :
    ((State.reset.setPc 0xFFF#16).pc.toNat % 2 = 1 ∧ (State.reset.setPc 0xFFF#16).pc.toNat < 4096) ∧
    4096 ≤ (State.reset.setPc 0x1000#16).pc.toNat ∧ 4096 ≤ (State.reset.setPc 0x1001#16).pc.toNat := by decide
/-- A legal word that fails, one that succeeds and does not write `PC`, and an illegal one, all at the last word. -/
theorem witness_AdvanceIsNeverUndone :
    (∃ t, fetch (bootAt 0xFFE#16 0x2200#16) = .ok 0x2200#16 ∧ step (bootAt 0xFFE#16 0x2200#16) = .next t ∧
      t.result = .error .addressOutOfBounds) ∧
    (∃ t, fetch (bootAt 0xFFE#16 0x6001#16) = .ok 0x6001#16 ∧ step (bootAt 0xFFE#16 0x6001#16) = .next t ∧
      decode (bootAt 0xFFE#16 0x6001#16).cfg 0x6001#16 = .instr (.loadVImm 0 1#8) ∧ ¬ writesPc (.loadVImm 0 1#8)) ∧
    (∃ t, fetch (bootAt 0xFFE#16 0xFFFF#16) = .ok 0xFFFF#16 ∧ step (bootAt 0xFFE#16 0xFFFF#16) = .next t ∧
      decode (bootAt 0xFFE#16 0xFFFF#16).cfg 0xFFFF#16 = .unknownInstruction 0xFFFF#16) :=
  ⟨⟨_, rfl, rfl, rfl⟩, ⟨_, rfl, rfl, rfl, by simp [writesPc]⟩, ⟨_, rfl, rfl, rfl⟩⟩
theorem witness_IllegalWordOnlyAdvances : fetch (bootAt 0xFFC#16 0xB123#16) = .ok 0xB123#16 ∧
    decode (bootAt 0xFFC#16 0xB123#16).cfg 0xB123#16 = .unknownInstruction 0xB123#16 := ⟨rfl, rfl⟩

/-! ## Witnesses: memory -/

theorem witness_ByteAccessIsChecked : 4096 ≤ 4096 ∧ 4095 < 4096 := by decide
theorem witness_CanonicalMemoriesAreEqual : Memory.wf [(0x300, 9#8), (0xFFF, 1#8)] ∧
    ∀ a, Memory.get [(0x300, 9#8), (0xFFF, 1#8)] a = Memory.get (copyBytes (copyBytes [] 0xFFF [1#8]) 0x300 [9#8]) a :=
  ⟨by decide, fun _ => rfl⟩
theorem witness_StoredBytesAreFetched : ∃ t, 1 ≤ (1 : RegIdx).val ∧ ((boot 0xF155#16).setI 0xFFE#16).i.toNat % 2 = 0 ∧
    ((boot 0xF155#16).setI 0xFFE#16).i.toNat + (1 : RegIdx).val < 4096 ∧
    exec (.saveRegistersToMem 1) ((boot 0xF155#16).setI 0xFFE#16) = .next t :=
  ⟨_, by decide, by decide, by decide, rfl⟩

/-! ## Witnesses: control transfer -/

theorem witness_ReturnPopsOrUnderflows :
    (State.reset.setStack [0xFFE#12]).stack = 0xFFE#12 :: [] ∧ (0xFFE#12 : Address).toNat % 2 = 0 ∧
    State.reset.stack = [] := by decide
theorem witness_CallPushesAndJumps : (State.reset.setPc 0xFFF#16).pc.toNat ≤ 4095 ∧
    (∀ d, (withCfg (State.reset.setPc 0xFFF#16) (depth 1)).cfg.stackDepth = some d →
      (withCfg (State.reset.setPc 0xFFF#16) (depth 1)).stack.length < d) ∧
    (∀ d, (State.reset.setPc 0xFFF#16).cfg.stackDepth = some d → (State.reset.setPc 0xFFF#16).stack.length < d) := by
  refine ⟨by decide, fun d h => ?_, fun d h => ?_⟩
  · cases h; decide
  · cases h
theorem witness_CallRefusesThePush : 4096 ≤ (State.reset.setPc 0x1000#16).pc.toNat ∧
    ((withCfg (State.reset.setStack [0x202#12]) (depth 1)).pc.toNat ≤ 4095 ∧
      (withCfg (State.reset.setStack [0x202#12]) (depth 1)).cfg.stackDepth = some 1 ∧
      1 ≤ (withCfg (State.reset.setStack [0x202#12]) (depth 1)).stack.length) := by decide
theorem witness_CallThenReturnRestores : ∃ t, exec (.call 0x300#12) State.reset = .next t ∧ t.result = .success ∧
    ((boot 0x00EE#16).setStack [0x200#12]).stack = t.stack := ⟨_, rfl, rfl, rfl⟩
theorem witness_JumpToSetsPc : (0xFFF#12 : Address).toNat % 2 = 1 ∧ (0xFFE#12 : Address).toNat % 2 = 0 ∧
    fetch (boot 0x1200#16) = .ok 0x1200#16 ∧ decode (boot 0x1200#16).cfg 0x1200#16 = .instr (.jumpTo 0x200#12) ∧
    (0x200#12 : Address).toNat = (boot 0x1200#16).pc.toNat := ⟨by decide, by decide, rfl, rfl, rfl⟩
theorem witness_SelfJumpIsFixed : fetch (bootAt 0xFFE#16 0x1FFE#16) = .ok 0x1FFE#16 ∧
    decode (bootAt 0xFFE#16 0x1FFE#16).cfg 0x1FFE#16 = .instr (.jumpTo 0xFFE#12) ∧
    (0xFFE#12 : Address).toNat = (bootAt 0xFFE#16 0x1FFE#16).pc.toNat := ⟨rfl, rfl, rfl⟩
theorem witness_SysDoesNothing : fetch State.reset = .ok 0x0000#16 ∧
    decode State.reset.cfg 0x0000#16 = .instr (.sys 0x000#12) ∧ 0x0#4 ∈ sysZeroOnly.sysLowNibbles :=
  ⟨rfl, rfl, by decide⟩
/-- The condition true and false, and a skip from 4096 whose `PC` no fetch accepts. -/
theorem witness_ImmediateSkips : State.reset.getV 3 = 0#8 ∧ State.reset.getV 3 ≠ 1#8 ∧
    next (exec (.skipIfEqVImm 3 0#8) (State.reset.setPc 0x1000#16)) (fun t => decide (4096 ≤ t.pc.toNat)) = true ∧
    next (exec (.skipIfNotEqVImm 3 0#8) (State.reset.setPc 0x1000#16)) (fun t => decide (4096 ≤ t.pc.toNat)) = true := by
  decide
theorem witness_RegisterSkips : State.reset.getV 1 = State.reset.getV 2 ∧
    (State.reset.setV 1 7#8).getV 1 ≠ (State.reset.setV 1 7#8).getV 2 ∧ (4 : RegIdx) = 4 := by decide

/-! ## Witnesses: registers, flags and memory blocks -/

theorem witness_AddV2SumAndCarry : (1 : RegIdx) ≠ vf ∧
    255 < (((State.reset.setV 1 255#8).setV 2 1#8).getV 1).toNat + (((State.reset.setV 1 255#8).setV 2 1#8).getV 2).toNat ∧
    ((State.reset.setV 1 255#8).getV 1).toNat + ((State.reset.setV 1 255#8).getV 2).toNat ≤ 255 := by decide
theorem witness_SubV2DifferenceAndNoBorrow : (1 : RegIdx) ≠ vf ∧
    (State.reset.getV 2).toNat ≤ (State.reset.getV 1).toNat ∧
    ((State.reset.setV 2 1#8).getV 1).toNat < ((State.reset.setV 2 1#8).getV 2).toNat := by decide
theorem witness_SubNV2DifferenceAndStrictFlag : (1 : RegIdx) ≠ vf ∧
    ((State.reset.setV 2 1#8).getV 1).toNat < ((State.reset.setV 2 1#8).getV 2).toNat ∧
    (State.reset.getV 2).toNat ≤ (State.reset.getV 1).toNat := by decide
theorem witness_ShiftRightBothDialects :
    ((withCfg (State.reset.setV 2 0x81#8) legacy).cfg.legacyShift = true ∧
      0x81#8 = (withCfg (State.reset.setV 2 0x81#8) legacy).getV 2) ∧
    ((State.reset.setV 1 0x81#8).cfg.legacyShift = false ∧ 0x81#8 = (State.reset.setV 1 0x81#8).getV 1) ∧
    (1 : RegIdx) ≠ vf := by decide
theorem witness_ShiftLeftBothDialects :
    ((withCfg (State.reset.setV 2 0xC1#8) legacy).cfg.legacyShift = true ∧
      0xC1#8 = (withCfg (State.reset.setV 2 0xC1#8) legacy).getV 2) ∧
    ((State.reset.setV 1 0xC1#8).cfg.legacyShift = false ∧ 0xC1#8 = (State.reset.setV 1 0xC1#8).getV 1) ∧
    (1 : RegIdx) ≠ vf := by decide
theorem witness_LoadRegistersLoadsBlock : (State.reset.setI 0xFF0#16).i.toNat + (15 : RegIdx).val < 4096 := by decide
theorem witness_LoadRegistersPastTheEnd : 4096 ≤ (State.reset.setI 0xFF1#16).i.toNat + (15 : RegIdx).val ∧
    4096 ≤ (State.reset.setI 0xFFFF#16).i.toNat + (0 : RegIdx).val := by decide
theorem witness_SaveRegistersStoresBlock : (State.reset.setI 0xFFF#16).i.toNat + (0 : RegIdx).val < 4096 := by decide
theorem witness_SaveRegistersPastTheEnd : 4096 ≤ (State.reset.setI 0xFFF#16).i.toNat + (1 : RegIdx).val ∧
    4096 ≤ (State.reset.setI 0x1000#16).i.toNat + (0 : RegIdx).val := by decide
theorem witness_BCDStoresDigits : (State.reset.setI 0xFFD#16).i.toNat + 2 < 4096 := by decide
/-- The three ranges of the failure: from 4094, from 4095, from 4096 on. -/
theorem witness_BCDPastTheEnd : 4096 ≤ (State.reset.setI 0xFFE#16).i.toNat + 2 ∧
    (State.reset.setI 0xFFE#16).i.toNat = 4094 ∧ (State.reset.setI 0xFFF#16).i.toNat ≤ 4095 ∧
    4096 ≤ (State.reset.setI 0xFFF#16).i.toNat + 2 ∧ 4096 ≤ (State.reset.setI 0x1000#16).i.toNat + 2 := by decide

/-! ## Witnesses: the display -/

/-- P10: the sprite 0xFF at (56, 31), its byte the last of memory: the last row and the last eight columns. -/
def corner : State := poke (((State.reset.setI 0xFFF#16).setV 0 56#8).setV 1 31#8) 0xFFF [0xFF#8]

theorem witness_DrawFlipsTheSprite : (corner.i.toNat + (1 : Fin 16).val ≤ 4096) ∧
    (∀ r, r < (1 : Fin 16).val → ∀ c, c < 8 → spriteBit corner r c = true →
      (corner.getV 0).toNat + c < 64 ∧ (corner.getV 1).toNat + r < 32) := by
  refine ⟨by decide, fun r hr c hc _ => ?_⟩
  have hx : (corner.getV 0).toNat = 56 := by decide
  have hy : (corner.getV 1).toNat = 31 := by decide
  have hl : (1 : Fin 16).val = 1 := rfl
  omega
/-- P8: no rows, anywhere. -/
theorem witness_DrawFlipsTheSprite_noRows : (0 : Fin 16).val = 0 ∧
    (∀ r, r < (0 : Fin 16).val → ∀ c, c < 8 → spriteBit (State.reset.setI 0x1000#16) r c = true →
      ((State.reset.setI 0x1000#16).getV 0).toNat + c < 64 ∧ ((State.reset.setI 0x1000#16).getV 1).toNat + r < 32) :=
  ⟨rfl, fun _ hr => absurd hr (Nat.not_lt_zero _)⟩
/-- P21. -/
theorem witness_DrawReadsBeforeItFlips : 0 < (2 : Fin 16).val ∧
    4096 < (State.reset.setI 0xFFF#16).i.toNat + (2 : Fin 16).val := by decide

/-- P13: the sprite 0xC0 at (63, 5), whose second bit falls on column 64. -/
def pastColumn : State := poke (((State.reset.setI 0x300#16).setV 0 63#8).setV 1 5#8) 0x300 [0xC0#8]

theorem witness_DrawOffTheGrid_column : pastColumn.i.toNat + (1 : Fin 16).val ≤ 4096 ∧ 0 < (1 : Fin 16).val ∧ 1 < 8 ∧
    spriteBit pastColumn 0 1 = true ∧ (64 ≤ (pastColumn.getV 0).toNat + 1 ∨ 32 ≤ (pastColumn.getV 1).toNat + 0) ∧
    (∀ r, r < (1 : Fin 16).val → ∀ c, c < 8 → bitBefore r c 0 1 → spriteBit pastColumn r c = true →
      (pastColumn.getV 0).toNat + c < 64 ∧ (pastColumn.getV 1).toNat + r < 32) := by
  refine ⟨by decide, by decide, by decide, by decide, by decide, fun r hr c hc hb _ => ?_⟩
  have hx : (pastColumn.getV 0).toNat = 63 := by decide
  have hy : (pastColumn.getV 1).toNat = 5 := by decide
  have hl : (1 : Fin 16).val = 1 := rfl
  unfold bitBefore at hb
  omega

/-- P15: the rows 0x80, 0x80 at (3, 31), the second on row 32. -/
def pastRow : State := poke (((State.reset.setI 0x300#16).setV 0 3#8).setV 1 31#8) 0x300 [0x80#8, 0x80#8]

theorem witness_DrawOffTheGrid_row : pastRow.i.toNat + (2 : Fin 16).val ≤ 4096 ∧ 1 < (2 : Fin 16).val ∧ 0 < 8 ∧
    spriteBit pastRow 1 0 = true ∧ (64 ≤ (pastRow.getV 0).toNat + 0 ∨ 32 ≤ (pastRow.getV 1).toNat + 1) ∧
    (∀ r, r < (2 : Fin 16).val → ∀ c, c < 8 → bitBefore r c 1 0 → spriteBit pastRow r c = true →
      (pastRow.getV 0).toNat + c < 64 ∧ (pastRow.getV 1).toNat + r < 32) := by
  refine ⟨by decide, by decide, by decide, by decide, by decide, fun r hr c hc hb _ => ?_⟩
  have hx : (pastRow.getV 0).toNat = 3 := by decide
  have hy : (pastRow.getV 1).toNat = 31 := by decide
  have hl : (2 : Fin 16).val = 2 := rfl
  unfold bitBefore at hb
  omega
theorem witness_DrawTwiceRestores : ∃ t u, exec (.draw 0 1 1) corner = .next t ∧ t.result = .success ∧
    exec (.draw 0 1 1) t = .next u := ⟨_, _, rfl, rfl, rfl⟩

/-! ## Witnesses: whole-machine rules -/

theorem witness_OnlyTheTabledErrors : ∃ t, exec .ret State.reset = .next t ∧ t.result = .error .stackUnderflow :=
  ⟨_, rfl, rfl⟩
/-- A fetch error; an illegal word; a block load, a block store and a sprite that fail. -/
theorem witness_StateAfterAnError :
    (∃ t, step (State.reset.setPc 0x1000#16) = .next t ∧ t.result = .error .addressOutOfBounds ∧
      fetch (State.reset.setPc 0x1000#16) = .error .addressOutOfBounds) ∧
    (∃ t, step (boot 0xFFFF#16) = .next t ∧ t.result = .error (.unknownInstruction 0xFFFF#16) ∧
      fetch (boot 0xFFFF#16) = .ok 0xFFFF#16) ∧
    (∃ t, step ((boot 0xF165#16).setI 0xFFF#16) = .next t ∧ t.result = .error .addressOutOfBounds) ∧
    (∃ t, step ((boot 0xF155#16).setI 0xFFF#16) = .next t ∧ t.result = .error .addressOutOfBounds) ∧
    (∃ t, step ((boot 0xD011#16).setI 0x1000#16) = .next t ∧ t.result = .error .addressOutOfBounds) :=
  ⟨⟨_, rfl, rfl, rfl⟩, ⟨_, rfl, rfl, rfl⟩, ⟨_, rfl, rfl⟩, ⟨_, rfl, rfl⟩, ⟨_, rfl, rfl⟩⟩
/-- An instruction that writes none of the five parts, and one that writes each. -/
theorem witness_OnlyItsOwnPartIsWritten : (∃ t, exec (.loadVImm 15 1#8) State.reset = .next t) ∧
    ¬ writesIndex (.loadVImm 15 1#8) ∧ ¬ writesPc (.loadVImm 15 1#8) ∧ ¬ writesMem (.loadVImm 15 1#8) ∧
    ¬ writesDisp (.loadVImm 15 1#8) ∧ ¬ writesStack (.loadVImm 15 1#8) := by
  refine ⟨⟨_, rfl⟩, ?_, ?_, ?_, ?_, ?_⟩ <;> simp [writesIndex, writesPc, writesMem, writesDisp, writesStack]
theorem witness_ConfigurationIsConstant : ∃ t r, (∀ l, HostOp.step ≠ .reset l) ∧
    hostOp .step State.reset = .next (t, r) := ⟨_, _, nofun, rfl⟩
theorem witness_OnlyShiftsReadLegacyShift : ∃ t, (∀ x y, Instr.addV2 1 2 ≠ .shiftRight x y) ∧
    (∀ x y, Instr.addV2 1 2 ≠ .shiftLeft x y) ∧ exec (.addV2 1 2) State.reset = .next t := ⟨_, nofun, nofun, rfl⟩
theorem witness_DisplayIsNeverRead : ∃ t, step (boot 0x8124#16) = .next t := ⟨_, rfl⟩

/-! ## Witnesses: the invariant, reset and the host -/

/-- A state that meets the invariant with a stack of finite depth that is full, about to run `Return`. -/
def returning : State := (withCfg (boot 0x00EE#16) (depth 1)).setStack [0xFFE#12]

theorem witness_returning_inv : returning.Inv := by
  refine ⟨by decide, by unfold PcOk; decide, by unfold StackOk; decide, fun d h => ?_⟩
  have : some 1 = some d := h
  cases this; decide
theorem witness_StepKeepsTheInvariant : ∃ t, returning.Inv ∧ step returning = .next t :=
  ⟨_, witness_returning_inv, rfl⟩
theorem witness_HostOperationsKeepTheInvariant : (∃ t r, returning.Inv ∧ hostOp .step returning = .next (t, r)) ∧
    (∃ t r, returning.Inv ∧ hostOp (.flipPixel 63 31) returning = .next (t, r)) ∧
    (∃ t r, returning.Inv ∧ hostOp (.load [0x12#8]) returning = .next (t, r)) :=
  ⟨⟨_, _, witness_returning_inv, rfl⟩, ⟨_, _, witness_returning_inv, rfl⟩, ⟨_, _, witness_returning_inv, rfl⟩⟩
/-- L4: the longest program that fits. -/
theorem witness_LoadCopiesTheProgram : (List.replicate 3584 0xEE#8).length ≤ 3584 := by
  rw [List.length_replicate]
/-- L5: one byte more. -/
theorem witness_LoadTooLongFails : 3584 < (List.replicate 3585 0xEE#8).length := by
  rw [List.length_replicate]; omega
theorem witness_DisplayPort : (63 < 64 ∧ 31 < 32) ∧ (64 ≤ 64 ∨ 32 ≤ 31) ∧ ¬ ((62 : Nat) = 63 ∧ (31 : Nat) = 31) := by
  decide

end Sys2Proof.Tests
end

section
/-! SUPPORT. The claims about `MEM` (spec/20_memory.md): fetch is big-endian, byte accesses are checked. -/

namespace Sys2Proof.Machine

/-- When a fetch succeeds and what it gives (R44, R46, R81): `PC` lies in memory and is even, and the byte at `PC` is the
high half of the word. -/
theorem fetch_eq_ok_iff (s : State) (op : Word) :
    fetch s = .ok op ↔ s.pc.toNat < memSize ∧ s.pc.toNat % 2 = 0 ∧
      op = wordOfBytes (s.mem.get s.pc.toNat) (s.mem.get (s.pc.toNat + 1)) := by
  unfold fetch
  rcases memRead2_cases s.mem s.pc.toNat with ⟨hout, hr⟩ | ⟨-, hodd, hr⟩ | ⟨hin, heven, hr⟩
  · simp [hr, Nat.not_lt.mpr hout]
  · simp [hr, hodd]
  · simp [hr, hin, heven, eq_comm]

/-- Settles O6: `fetch_eq_ok_iff` gives the word as its two bytes, and each half reads back. -/
theorem fetchIsBigEndian : Obligations.FetchIsBigEndian := by
  intro s
  constructor
  · intro heven hle
    exact ⟨_, (fetch_eq_ok_iff s _).mpr ⟨hle.trans_lt (by decide), heven, rfl⟩,
      highByte_wordOfBytes _ _, lowByte_wordOfBytes _ _⟩
  · intro op hf
    obtain ⟨-, heven, -⟩ := (fetch_eq_ok_iff s op).mp hf
    exact heven

/-- Settles O11: the bounds check decides both primitives, and below the bound the write is `Memory.set`, whose reads
`Memory.get_set` gives. -/
theorem byteAccessIsChecked : Obligations.ByteAccessIsChecked := by
  intro m a x
  constructor
  · intro hout
    simp [memRead1_eq, memWrite1_eq, Nat.not_lt.mpr hout]
  · intro hin
    refine ⟨by simp [memRead1_eq, hin], m.set a x, by simp [memWrite1_eq, hin], ?_, fun b hb => ?_⟩
    · simp [memRead1_eq, hin]
    · simp [hb]

end Sys2Proof.Machine
end

section
/-! SUPPORT. The claims about the step (spec/40_execute_cycle.md): its stages in order, and the advance of `PC`. -/

namespace Sys2Proof.Machine

/-! ## Decode -/

/-- If the decoder's answer is a rejection, it carries the word `op` itself. -/
def CarriesWord (op : Word) (d : Decoded) : Prop := ∀ w, d = .unknownInstruction w → w = op

theorem carriesWord_instr (op : Word) (i : Instr) : CarriesWord op (.instr i) := nofun

theorem carriesWord_unknownInstruction (op : Word) : CarriesWord op (.unknownInstruction op) :=
  fun _ h => (Decoded.unknownInstruction.inj h).symm

theorem carriesWord_ite {op : Word} {p : Prop} [Decidable p] {a b : Decoded} (ha : CarriesWord op a)
    (hb : CarriesWord op b) : CarriesWord op (if p then a else b) := by
  split
  · exact ha
  · exact hb

/-- The decoder is a tree of tests whose leaves are instructions and rejections of the word itself (R63, R70). -/
theorem decode_carriesWord (c : Config) (op : Word) : CarriesWord op (decode c op) := by
  unfold decode decodeGroup0 decodeGroup5 decodeGroup8 decodeGroup9 decodeGroupF
  repeat' apply carriesWord_ite
  all_goals apply_rules [carriesWord_instr, carriesWord_unknownInstruction]

theorem decode_unknownInstruction_eq {c : Config} {op w : Word} (h : decode c op = .unknownInstruction w) : w = op :=
  decode_carriesWord c op w h

/-! ## Fetch and advance -/

/-- A fetch fails in one of two ways (R81). -/
theorem fetch_error_cases {s : State} {e : ExecError} (h : fetch s = .error e) :
    e = .addressOutOfBounds ∨ e = .addressUnaligned := by
  unfold fetch at h
  rcases memRead2_cases s.mem s.pc.toNat with ⟨-, hr⟩ | ⟨-, -, hr⟩ | ⟨-, -, hr⟩ <;> rw [hr] at h <;> cases h
  · exact .inl rfl
  · exact .inr rfl

/-- A word that was fetched lies inside `MEM` with both its bytes, `PC` being even (R81, R82). -/
theorem pc_add_two_le_of_fetch {s : State} {op : Word} (h : fetch s = .ok op) : s.pc.toNat + 2 ≤ 4096 := by
  obtain ⟨hin, heven, -⟩ := (fetch_eq_ok_iff s op).mp h
  have : s.pc.toNat < 4096 := hin
  omega

/-- The advance after a fetch does not wrap (R82). -/
theorem pc_add_two_toNat_of_fetch {s : State} {op : Word} (h : fetch s = .ok op) :
    (s.pc + 2#16).toNat = s.pc.toNat + 2 := by
  have := pc_add_two_le_of_fetch h
  bv_omega

/-! ## The step, one equation per case of R80 -/

theorem step_of_fetch_error {s : State} {e : ExecError} (hf : fetch s = .error e) :
    step s = .next (s.setResult (.error e)) := by
  simp [step, hf]

theorem step_of_fetch {s : State} {op : Word} (hf : fetch s = .ok op) :
    step s = decodeAndExec op (s.setPc (s.pc + 2#16)) := by
  simp [step, hf, advance, nextPc]

theorem step_of_unknownInstruction {s : State} {op w : Word} (hf : fetch s = .ok op)
    (hd : decode s.cfg op = .unknownInstruction w) :
    step s = .next ((s.setPc (s.pc + 2#16)).setResult (.error (.unknownInstruction op))) := by
  rw [step_of_fetch hf]
  simp [decodeAndExec, hd, decode_unknownInstruction_eq hd]

theorem step_of_instr {s : State} {op : Word} {i : Instr} (hf : fetch s = .ok op) (hd : decode s.cfg op = .instr i) :
    step s = exec i (s.setPc (s.pc + 2#16)) := by
  rw [step_of_fetch hf]
  simp [decodeAndExec, hd]

/-! ## The block operations: `PC` kept, and the one error each can end in -/

theorem storeAll_pc (cs : List (Nat × Byte)) (s : State) : (storeAll cs s).1.pc = s.pc := by
  simp [storeAll_eq]

theorem storeAll_error {cs : List (Nat × Byte)} {s : State} {e : ExecError} (h : (storeAll cs s).2 = some e) :
    e = .addressOutOfBounds := by
  rw [storeAll_eq, Option.ite_none_left_eq_some, Option.some_inj] at h
  exact h.2.symm

theorem loadAll_pc (base : Nat) (rs : List RegIdx) (s : State) : (loadAll base rs s).1.pc = s.pc := by
  rw [loadAll_eq]
  obtain ⟨-, hpc, -⟩ := foldl_setV_fields (fun o => s.mem.get (base + o.val))
    (rs.takeWhile (fun o => decide (base + o.val < memSize))) s
  exact hpc

theorem loadAll_error {base : Nat} {rs : List RegIdx} {s : State} {e : ExecError} (h : (loadAll base rs s).2 = some e) :
    e = .addressOutOfBounds := by
  rw [loadAll_eq, Option.ite_none_left_eq_some, Option.some_inj] at h
  exact h.2.symm

theorem readBytes_error {m : Memory} {base len : Nat} {e : ExecError} (h : readBytes m base len = .error e) :
    e = .addressOutOfBounds := by
  rw [readBytes_eq] at h
  split at h <;> cases h
  rfl

theorem drawRows_pc (x y : RegIdx) (rows : List Byte) (s : State) : (drawRows x y rows s).1.pc = s.pc := rfl

theorem drawRows_error {x y : RegIdx} {rows : List Byte} {s : State} {e : ExecError}
    (h : (drawRows x y rows s).2 = some e) : e = .displayOutOfBounds := by
  rw [drawRows, flipAll_eq, Option.ite_none_left_eq_some, Option.some_inj] at h
  exact h.2.symm

/-! ## How an instruction's meaning ends -/

/-- The outcome of instruction `i` from `s` is a next state: a success that moves `PC` only if `i` writes it (R24), or
an error of the table of R147 that leaves `PC` where it was (R82). -/
def EndsOrRaises (i : Instr) (s : State) (o : Host.Outcome State Fault Refusal) : Prop :=
  ∃ t, o = .next t ∧
    ((t.result = .success ∧ (¬ writesPc i → t.pc = s.pc)) ∨ ∃ e ∈ mayRaise i, t.result = .error e ∧ t.pc = s.pc)

theorem endsOrRaises_complete {i : Instr} {s u : State} (h : ¬ writesPc i → u.pc = s.pc) :
    EndsOrRaises i s (complete u) :=
  ⟨_, rfl, .inl ⟨rfl, h⟩⟩

theorem endsOrRaises_raise {i : Instr} {s u : State} {e : ExecError} (he : e ∈ mayRaise i) (hpc : u.pc = s.pc) :
    EndsOrRaises i s (raise e u) :=
  ⟨_, rfl, .inr ⟨e, he, rfl, hpc⟩⟩

theorem endsOrRaises_finish {i : Instr} {s : State} {p : State × Option ExecError} (hpc : p.1.pc = s.pc)
    (he : ∀ e, p.2 = some e → e ∈ mayRaise i) : EndsOrRaises i s (finish p) := by
  obtain ⟨u, _ | e⟩ := p
  · exact endsOrRaises_complete fun _ => hpc
  · exact endsOrRaises_raise (he e rfl) hpc

theorem execReturn_endsOrRaises (s : State) : EndsOrRaises .ret s (execReturn s) := by
  unfold execReturn
  rcases pop_cases s.stack with ⟨-, hp⟩ | ⟨a, k, -, hp⟩ <;> rw [hp]
  · exact endsOrRaises_raise (by simp [mayRaise]) rfl
  · exact endsOrRaises_complete fun hw => absurd (by simp [writesPc]) hw

theorem execCall_endsOrRaises (addr : Address) (s : State) : EndsOrRaises (.call addr) s (execCall addr s) := by
  unfold execCall
  rcases push_cases s.cfg s.stack s.pc.toNat with ⟨-, hp⟩ | ⟨-, -, hp⟩ | ⟨-, -, hp⟩ <;> rw [hp]
  · exact endsOrRaises_raise (by simp [mayRaise]) rfl
  · exact endsOrRaises_raise (by simp [mayRaise]) rfl
  · exact endsOrRaises_complete fun hw => absurd (by simp [writesPc]) hw

theorem execDraw_endsOrRaises (x y : RegIdx) (len : Fin 16) (s : State) :
    EndsOrRaises (.draw x y len) s (execDraw x y len s) := by
  unfold execDraw
  cases hr : readBytes s.mem (effAddr s 0) len.val with
  | error e => exact endsOrRaises_raise (by simp [mayRaise, readBytes_error hr]) rfl
  | ok rows =>
    exact endsOrRaises_finish (drawRows_pc x y rows s) fun e he => by simp [mayRaise, drawRows_error he]

/-- Everything the meaning of an instruction does to `PC` and to what the step returns. -/
theorem exec_endsOrRaises (i : Instr) (s : State) : EndsOrRaises i s (exec i s) := by
  cases i with
  | ret => exact execReturn_endsOrRaises s
  | call addr => exact execCall_endsOrRaises addr s
  | draw x y len => exact execDraw_endsOrRaises x y len s
  | loadRegistersFromMem n =>
    exact endsOrRaises_finish (loadAll_pc _ _ s) fun e he => by simp [mayRaise, loadAll_error he]
  | saveRegistersToMem n =>
    exact endsOrRaises_finish (storeAll_pc _ s) fun e he => by simp [mayRaise, storeAll_error he]
  | bcdRegister r =>
    exact endsOrRaises_finish (storeAll_pc _ s) fun e he => by simp [mayRaise, storeAll_error he]
  | jumpTo | skipIfEqVImm | skipIfNotEqVImm | skipIfEqualV2 | skipIfNotEqualV2 =>
    exact endsOrRaises_complete fun hw => absurd (by simp [writesPc]) hw
  | _ => exact endsOrRaises_complete fun _ => rfl

theorem exec_pc_of_not_writesPc {i : Instr} {s t : State} (h : exec i s = .next t) (hw : ¬ writesPc i) :
    t.pc = s.pc := by
  obtain ⟨u, hu, ⟨-, hpc⟩ | ⟨e, -, -, hpc⟩⟩ := exec_endsOrRaises i s <;> cases h.symm.trans hu
  · exact hpc hw
  · exact hpc

theorem exec_pc_of_error {i : Instr} {s t : State} {e : ExecError} (h : exec i s = .next t) (he : t.result = .error e) :
    t.pc = s.pc := by
  obtain ⟨u, hu, ⟨hok, -⟩ | ⟨e, -, -, hpc⟩⟩ := exec_endsOrRaises i s <;> cases h.symm.trans hu
  · cases he.symm.trans hok
  · exact hpc

/-! ## The obligations -/

/-- Settles O8: the bound and the missing wrap come from the fetch; the rest from how an instruction's meaning ends, and
from the one equation of an illegal word. -/
theorem advanceIsNeverUndone : Obligations.AdvanceIsNeverUndone := by
  intro s t op hf hs
  have hillegal : ∀ w, decode s.cfg op = .unknownInstruction w → t.pc = s.pc + 2#16 := by
    intro w hd
    cases hs.symm.trans (step_of_unknownInstruction hf hd)
    rfl
  have hexec : ∀ i, decode s.cfg op = .instr i → exec i (s.setPc (s.pc + 2#16)) = .next t :=
    fun i hd => (step_of_instr hf hd).symm.trans hs
  refine ⟨pc_add_two_toNat_of_fetch hf, pc_add_two_le_of_fetch hf,
    fun i hd => ⟨hexec i hd, exec_pc_of_not_writesPc (hexec i hd)⟩, hillegal, fun e he => ?_⟩
  cases hd : decode s.cfg op with
  | unknownInstruction w => exact hillegal w hd
  | instr i => exact exec_pc_of_error (hexec i hd) he

/-- Settles O5: one equation of the step per clause, and `exec_endsOrRaises` for what a legal word returns. -/
theorem stepRunsTheDecodedInstruction : Obligations.StepRunsTheDecodedInstruction := by
  intro s
  refine ⟨fun e hf => ⟨fetch_error_cases hf, step_of_fetch_error hf⟩,
    fun op w hf hd => ⟨decode_unknownInstruction_eq hd, step_of_unknownInstruction hf hd⟩, fun op i hf hd => ?_⟩
  have hstep := step_of_instr hf hd
  obtain ⟨t, ht, ⟨hok, -⟩ | ⟨e, hmem, he, -⟩⟩ := exec_endsOrRaises i (s.setPc (s.pc + 2#16))
  · exact ⟨hstep, t, hstep.trans ht, .inl hok⟩
  · exact ⟨hstep, t, hstep.trans ht, .inr ⟨e, hmem, he⟩⟩

/-- Settles O9: the step's equation for an illegal word names the whole next state, and its `PC` does not wrap. -/
theorem illegalWordOnlyAdvances : Obligations.IllegalWordOnlyAdvances := by
  intro s op w hf hd
  have hpc := pc_add_two_toNat_of_fetch hf
  refine ⟨decode_unknownInstruction_eq hd, _, step_of_unknownInstruction hf hd, rfl, hpc, ?_, ?_⟩
  · exact ⟨fun _ => rfl, rfl, fun _ => rfl, rfl, rfl, rfl⟩
  · simp only [fetch, State.setResult_mem, State.setPc_mem, State.setResult_pc, State.setPc_pc, hpc]

end Sys2Proof.Machine
end

section
/-! SUPPORT. The claims about control transfer (spec/41_control_transfer.md): `Return`, `JumpTo`, `Sys` and the skips. -/

namespace Sys2Proof.Machine

/-! ## `PC`: updates of it, and what the next fetch makes of its value -/

@[simp] theorem State.setPc_setPc (s : State) (w w' : Word) : (s.setPc w).setPc w' = s.setPc w' := rfl

@[simp] theorem State.setPc_self (s : State) : s.setPc s.pc = s := rfl

@[simp] theorem zextAddress_toNat (a : Address) : (zextAddress a).toNat = a.toNat := by
  have := a.isLt
  simp only [zextAddress, BitVec.toNat_setWidth]
  omega

theorem step_of_pc_outOfRange {t : State} (hout : memSize ≤ t.pc.toNat) :
    step t = .next (t.setResult (.error .addressOutOfBounds)) := by
  refine step_of_fetch_error ?_
  rw [fetch, memRead2, if_pos hout]

theorem step_of_pc_odd {t : State} (hin : t.pc.toNat < memSize) (hodd : t.pc.toNat % 2 = 1) :
    step t = .next (t.setResult (.error .addressUnaligned)) := by
  refine step_of_fetch_error ?_
  rw [fetch, memRead2, if_neg (Nat.not_le.mpr hin), if_pos (by omega)]

theorem exists_fetch_of_pc_even {t : State} (hin : t.pc.toNat < memSize) (heven : t.pc.toNat % 2 = 0) :
    ∃ op, fetch t = .ok op :=
  ⟨_, (fetch_eq_ok_iff t _).mpr ⟨hin, heven, rfl⟩⟩

/-! ## What the updates leave unchanged -/

theorem frameAll_setResult (s : State) (r : StepResult) : FrameAll s (s.setResult r) :=
  ⟨fun _ => rfl, rfl, rfl, fun _ => rfl, rfl, rfl, rfl⟩

theorem framePc_setPc (s : State) (w : Word) (r : StepResult) : FramePc s ((s.setPc w).setResult r) :=
  ⟨fun _ => rfl, rfl, fun _ => rfl, rfl, rfl, rfl⟩

theorem framePcStack_setStack_setPc (s : State) (k : List Address) (w : Word) (r : StepResult) :
    FramePcStack s (((s.setStack k).setPc w).setResult r) :=
  ⟨fun _ => rfl, rfl, fun _ => rfl, rfl, rfl⟩

/-! ## The meaning of `Return`, `JumpTo` and `Sys`, one equation per case -/

theorem exec_ret_of_cons {s : State} {a : Address} {k : List Address} (h : s.stack = a :: k) :
    exec .ret s = .next (((s.setStack k).setPc (zextAddress a)).setResult .success) := by
  simp [exec, execReturn, h, pop]

theorem exec_ret_of_nil {s : State} (h : s.stack = []) :
    exec .ret s = .next (s.setResult (.error .stackUnderflow)) := by
  simp [exec, execReturn, h, pop]

theorem exec_jumpTo (addr : Address) (s : State) :
    exec (.jumpTo addr) s = .next ((s.setPc (zextAddress addr)).setResult .success) := rfl

theorem exec_sys (addr : Address) (s : State) : exec (.sys addr) s = .next (s.setResult .success) := rfl

/-- A jump to its own address undoes the advance of `PC` (R92). -/
theorem step_of_selfJump {s : State} {op : Word} {addr : Address} (hf : fetch s = .ok op)
    (hd : decode s.cfg op = .instr (.jumpTo addr)) (hself : addr.toNat = s.pc.toNat) :
    step s = .next (s.setResult .success) := by
  have hpc : zextAddress addr = s.pc := BitVec.eq_of_toNat_eq ((zextAddress_toNat addr).trans hself)
  rw [step_of_instr hf hd, exec_jumpTo, hpc, State.setPc_setPc, State.setPc_self]

/-! ## Group 0 of the decoder (R65) -/

theorem decode_of_group0 {op : Word} (c : Config) (hclear : op ≠ 0x00E0#16) (hret : op ≠ 0x00EE#16)
    (hg : opGroup op = 0x0#4) : decode c op = decodeGroup0 c op := by
  rw [decode, if_neg hclear, if_neg hret, if_pos hg]

theorem decodeGroup0_of_mem {c : Config} {op : Word} (h : opN op ∈ c.sysLowNibbles) :
    decodeGroup0 c op = .instr (.sys (opNNN op)) :=
  if_pos (List.contains_iff_mem.mpr h)

/-! ## The skips -/

/-- The outcome `o` from `s` is a success that changes `PC` alone, adding 2 to it exactly when `p` holds (R94 to R97). -/
def SkipsWhen (p : Prop) (s : State) (o : Host.Outcome State Fault Refusal) : Prop :=
  ∃ t, o = .next t ∧ t.result = .success ∧ FramePc s t ∧ (p → t.pc = s.pc + 2#16) ∧ (¬ p → t.pc = s.pc)

theorem skipsWhen_complete {c : Bool} {p : Prop} (hc : c = true ↔ p) (s : State) :
    SkipsWhen p s (complete (skipWhen c s)) := by
  rw [skipWhen_eq, complete_eq]
  refine ⟨_, rfl, rfl, framePc_setPc s _ _, fun hp => ?_, fun hp => ?_⟩
  · exact if_pos (hc.mpr hp)
  · exact if_neg (mt hc.mp hp)

theorem exec_skipIfEqVImm_skipsWhen (r : RegIdx) (imm : Byte) (s : State) :
    SkipsWhen (s.getV r = imm) s (exec (.skipIfEqVImm r imm) s) :=
  skipsWhen_complete beq_iff_eq s

theorem exec_skipIfNotEqVImm_skipsWhen (r : RegIdx) (imm : Byte) (s : State) :
    SkipsWhen (s.getV r ≠ imm) s (exec (.skipIfNotEqVImm r imm) s) :=
  skipsWhen_complete bne_iff_ne s

theorem exec_skipIfEqualV2_skipsWhen (x y : RegIdx) (s : State) :
    SkipsWhen (s.getV x = s.getV y) s (exec (.skipIfEqualV2 x y) s) :=
  skipsWhen_complete beq_iff_eq s

theorem exec_skipIfNotEqualV2_skipsWhen (x y : RegIdx) (s : State) :
    SkipsWhen (s.getV x ≠ s.getV y) s (exec (.skipIfNotEqualV2 x y) s) :=
  skipsWhen_complete bne_iff_ne s

/-! ## The obligations -/

/-- Settles O14: one equation of `Return` per shape of the stack; an entry, an Address, is in range of the fetch. -/
theorem returnPopsOrUnderflows : Obligations.ReturnPopsOrUnderflows := by
  intro s
  constructor
  · intro a k hs
    have hpc : (((s.setStack k).setPc (zextAddress a)).setResult .success).pc.toNat = a.toNat := zextAddress_toNat a
    exact ⟨_, exec_ret_of_cons hs, rfl, hpc, rfl, framePcStack_setStack_setPc s k _ _,
      fun heven => exists_fetch_of_pc_even (hpc ▸ a.isLt) (hpc ▸ heven)⟩
  · intro hs
    exact ⟨_, exec_ret_of_nil hs, rfl, frameAll_setResult s _⟩

/-- Settles O18: the target is an Address, so the next fetch is in range and its parity alone decides it. -/
theorem jumpToSetsPc : Obligations.JumpToSetsPc := by
  intro s addr
  have hpc : ((s.setPc (zextAddress addr)).setResult .success).pc.toNat = addr.toNat := zextAddress_toNat addr
  exact ⟨⟨_, exec_jumpTo addr s, rfl, hpc, framePc_setPc s _ _,
      fun hodd => step_of_pc_odd (hpc ▸ addr.isLt) (hpc ▸ hodd),
      fun heven => exists_fetch_of_pc_even (hpc ▸ addr.isLt) (hpc ▸ heven)⟩,
    fun _ hf hd hself => step_of_selfJump hf hd hself⟩

/-- Settles O20: the step is the advance alone, which does not wrap after a fetch; 0x0000 is in group 0, not a literal. -/
theorem sysDoesNothing : Obligations.SysDoesNothing := by
  refine ⟨fun s addr => ?_, fun s op addr hf hd => ?_, fun c hc => ?_⟩
  · exact ⟨_, exec_sys addr s, rfl, frameAll_setResult s _⟩
  · exact ⟨_, (step_of_instr hf hd).trans (exec_sys addr _), rfl, pc_add_two_toNat_of_fetch hf, framePc_setPc s _ _⟩
  · exact (decode_of_group0 c (by decide) (by decide) rfl).trans (decodeGroup0_of_mem hc)

/-- Settles O21: both are skips on their condition, and a `PC` past the top fails at the next fetch. -/
theorem immediateSkips : Obligations.ImmediateSkips := by
  intro s r imm
  constructor
  · obtain ⟨t, hexec, hok, hframe, hskip, hstay⟩ := exec_skipIfEqVImm_skipsWhen r imm s
    exact ⟨t, hexec, hok, hframe, hskip, hstay, step_of_pc_outOfRange⟩
  · obtain ⟨t, hexec, hok, hframe, hskip, hstay⟩ := exec_skipIfNotEqVImm_skipsWhen r imm s
    exact ⟨t, hexec, hok, hframe, hskip, fun heq => hstay (not_not_intro heq), step_of_pc_outOfRange⟩

/-- Settles O22: both are skips on their condition, and a register equals itself. -/
theorem registerSkips : Obligations.RegisterSkips := by
  intro s x y
  constructor
  · obtain ⟨t, hexec, hok, hframe, hskip, hstay⟩ := exec_skipIfEqualV2_skipsWhen x y s
    exact ⟨t, hexec, hok, hframe, hskip, hstay, fun hxy => hskip (congrArg s.getV hxy)⟩
  · obtain ⟨t, hexec, hok, hframe, hskip, hstay⟩ := exec_skipIfNotEqualV2_skipsWhen x y s
    have hkeep : s.getV x = s.getV y → t.pc = s.pc := fun heq => hstay (not_not_intro heq)
    exact ⟨t, hexec, hok, hframe, hskip, hkeep, fun hxy => hkeep (congrArg s.getV hxy)⟩

end Sys2Proof.Machine
end

section
/-! SUPPORT. The claims about the register instructions that write no flag (spec/42_register_alu.md): `LoadVImm`, `AddVImm`,
`SetEqual` and the three bitwise instructions. -/

namespace Sys2Proof.Machine

/-! ## One register written -/

theorem State.setV_getV_same (s : State) (r : RegIdx) (b : Byte) : (s.setV r b).getV r = b := by simp

theorem State.setV_getV_of_ne (s : State) {r j : RegIdx} (b : Byte) (h : j ≠ r) : (s.setV r b).getV j = s.getV j := by
  simp [h]

theorem frameRegs_setV (s : State) (r : RegIdx) (b : Byte) (res : StepResult) :
    FrameRegs [r] s ((s.setV r b).setResult res) :=
  ⟨fun _ hj => State.setV_getV_of_ne s b (List.ne_of_not_mem_cons hj), rfl, rfl, fun _ => rfl, rfl, rfl, rfl⟩

/-- The outcome `o` from `s` is a success that puts `b` in `V[r]` and changes nothing else. -/
def WritesReg (r : RegIdx) (b : Byte) (s : State) (o : Host.Outcome State Fault Refusal) : Prop :=
  ∃ t, o = .next t ∧ t.result = .success ∧ t.getV r = b ∧ FrameRegs [r] s t

theorem writesReg_complete (r : RegIdx) (b : Byte) (s : State) : WritesReg r b s (complete (s.setV r b)) :=
  ⟨_, complete_eq _, rfl, State.setV_getV_same s r b, frameRegs_setV s r b _⟩

/-! ## What each instruction writes -/

theorem exec_loadVImm_writesReg (r : RegIdx) (imm : Byte) (s : State) :
    WritesReg r imm s (exec (.loadVImm r imm) s) :=
  writesReg_complete _ _ s

theorem exec_addVImm_writesReg (r : RegIdx) (imm : Byte) (s : State) :
    WritesReg r (s.getV r + imm) s (exec (.addVImm r imm) s) :=
  writesReg_complete _ _ s

theorem exec_setEqual_writesReg (x y : RegIdx) (s : State) : WritesReg x (s.getV y) s (exec (.setEqual x y) s) :=
  writesReg_complete _ _ s

theorem exec_bitWiseOrEqual_writesReg (x y : RegIdx) (s : State) :
    WritesReg x (s.getV x ||| s.getV y) s (exec (.bitWiseOrEqual x y) s) :=
  writesReg_complete _ _ s

theorem exec_bitWiseAndEqual_writesReg (x y : RegIdx) (s : State) :
    WritesReg x (s.getV x &&& s.getV y) s (exec (.bitWiseAndEqual x y) s) :=
  writesReg_complete _ _ s

theorem exec_bitWiseXorEqual_writesReg (x y : RegIdx) (s : State) :
    WritesReg x (s.getV x ^^^ s.getV y) s (exec (.bitWiseXorEqual x y) s) :=
  writesReg_complete _ _ s

/-! ## The obligations -/

/-- Settles O23: the one register written is `V[r]`, with the immediate. -/
theorem loadVImmSetsRegister : Obligations.LoadVImmSetsRegister :=
  fun s r imm => exec_loadVImm_writesReg r imm s

/-- Settles O24: the one register written is `V[r]`, with a sum of bytes, and such a sum wraps modulo 256. -/
theorem addVImmWrapsSilently : Obligations.AddVImmWrapsSilently := by
  intro s r imm
  obtain ⟨t, hexec, hok, hval, hframe⟩ := exec_addVImm_writesReg r imm s
  have hsum : (t.getV r).toNat = ((s.getV r).toNat + imm.toNat) % 256 := by rw [hval, BitVec.toNat_add]
  exact ⟨t, hexec, hok, hsum, hframe⟩

/-- Settles O25: the one register written is `V[x]`, with what `V[y]` held. -/
theorem setEqualCopies : Obligations.SetEqualCopies :=
  fun s x y => exec_setEqual_writesReg x y s

/-- Settles O26: each writes `V[x]` alone, with an operation on bytes that acts bit by bit; a byte exclusive-ored with
itself is 0. -/
theorem bitwiseResults : Obligations.BitwiseResults := by
  intro s x y
  refine ⟨?_, ?_, ?_⟩
  · obtain ⟨t, hexec, hok, hval, hframe⟩ := exec_bitWiseOrEqual_writesReg x y s
    exact ⟨t, hexec, hok, hframe, fun b => by rw [hval, BitVec.getLsbD_or]⟩
  · obtain ⟨t, hexec, hok, hval, hframe⟩ := exec_bitWiseAndEqual_writesReg x y s
    exact ⟨t, hexec, hok, hframe, fun b => by rw [hval, BitVec.getLsbD_and]⟩
  · obtain ⟨t, hexec, hok, hval, hframe⟩ := exec_bitWiseXorEqual_writesReg x y s
    have hself : x = y → t.getV x = 0#8 := fun hxy => by rw [hval, hxy, BitVec.xor_self]
    exact ⟨t, hexec, hok, hframe, fun b => by rw [hval, BitVec.getLsbD_xor], hself⟩

end Sys2Proof.Machine
end

section
/-! SUPPORT. The claim about `LoadIImm` (spec/43_index_memory.md). -/

namespace Sys2Proof.Machine

/-! ## `I` written -/

theorem frameIndex_setI (s : State) (w : Word) (r : StepResult) : FrameIndex s ((s.setI w).setResult r) :=
  ⟨fun _ => rfl, rfl, fun _ => rfl, rfl, rfl, rfl⟩

theorem exec_loadIImm (imm : Address) (s : State) :
    exec (.loadIImm imm) s = .next ((s.setI (zextAddress imm)).setResult .success) := rfl

/-! ## The obligation -/

/-- Settles O32: the one update is to `I`, and zero extension keeps the value of the immediate. -/
theorem loadIImmSetsIndex : Obligations.LoadIImmSetsIndex :=
  fun s imm => ⟨_, exec_loadIImm imm s, rfl, zextAddress_toNat imm, frameIndex_setI s _ _⟩

end Sys2Proof.Machine
end

section
/-! SUPPORT. The claim about `ClearScreen` (spec/44_display.md). -/

namespace Sys2Proof.Machine

/-! ## `DISP` written -/

theorem frameDisp_setDisp (s : State) (d : Display) (r : StepResult) : FrameDisp s ((s.setDisp d).setResult r) :=
  ⟨fun _ => rfl, rfl, rfl, fun _ => rfl, rfl, rfl⟩

theorem displayClear_disp_get (s : State) (px py : Nat) : (displayClear s).disp.get px py = false :=
  Display.get_blank px py

theorem exec_clearScreen (s : State) : exec .clearScreen s = .next ((displayClear s).setResult .success) := rfl

/-! ## The obligation -/

/-- Settles O40: the one update is to `DISP`, which becomes the blank grid. -/
theorem clearScreenClears : Obligations.ClearScreenClears :=
  fun s => ⟨_, exec_clearScreen s, rfl, displayClear_disp_get s, frameDisp_setDisp s _ _⟩

end Sys2Proof.Machine
end

section
/-! SUPPORT. The claims about the encoding (spec/30_encoding.md): decode and encode are inverse to each other, and the
illegal words are those of the table. -/

namespace Sys2Proof.Machine

/-! ## The two literals, which lie in group 0 -/

@[simp] theorem ne_clearScreenWord_of_opGroup {op : Word} (hg : opGroup op ≠ 0x0#4) : op ≠ 0x00E0#16 := by
  rintro rfl
  exact hg rfl

@[simp] theorem ne_retWord_of_opGroup {op : Word} (hg : opGroup op ≠ 0x0#4) : op ≠ 0x00EE#16 := by
  rintro rfl
  exact hg rfl

theorem ne_literals_of_sysNotLiteral {addr : Address} (h : sysNotLiteral addr = true) :
    wordNNN 0x0#4 addr ≠ 0x00E0#16 ∧ wordNNN 0x0#4 addr ≠ 0x00EE#16 := by
  have hnnn := opNNN_wordNNN 0x0#4 addr
  constructor <;> intro hw <;> rw [hw] at hnnn <;> subst hnnn <;> exact absurd h (by decide)

/-! ## A word is made of its fields (R61) -/

theorem wordNNN_fields (op : Word) : wordNNN (opGroup op) (opNNN op) = op := by
  apply BitVec.eq_of_getLsbD_eq
  intro i hi
  simp only [wordNNN_bit, opGroup, opNNN, BitVec.getLsbD_extractLsb']
  interval_cases i <;> simp

theorem wordXKK_fields (op : Word) : wordXKK (opGroup op) (opX op) (opKK op) = op := by
  apply BitVec.eq_of_getLsbD_eq
  intro i hi
  simp only [wordXKK_bit, opGroup, opX, opKK, BitVec.ofFin_toFin, BitVec.getLsbD_extractLsb']
  interval_cases i <;> simp

theorem wordXYN_fields (op : Word) : wordXYN (opGroup op) (opX op) (opY op) (opN op) = op := by
  apply BitVec.eq_of_getLsbD_eq
  intro i hi
  simp only [wordXYN_bit, opGroup, opX, opY, opN, BitVec.ofFin_toFin, BitVec.getLsbD_extractLsb']
  interval_cases i <;> simp

theorem opN_eq_extractLsb'_opNNN (op : Word) : opN op = (opNNN op).extractLsb' 0 4 := by
  rw [← opN_wordNNN (opGroup op), wordNNN_fields]

/-! ## Decoding what `encode` writes -/

/-- A `Sys` word is no literal and its low nibble is accepted, so group 0 gives the operand back (R65). -/
theorem decode_encode_sys {c : Config} {addr : Address} (h : WellFormed c (.sys addr) = true) :
    decode c (encode (.sys addr)) = .instr (.sys addr) := by
  obtain ⟨hlit, hnib⟩ := Bool.and_eq_true_iff.mp h
  obtain ⟨hclear, hret⟩ := ne_literals_of_sysNotLiteral hlit
  have hmem : opN (wordNNN 0x0#4 addr) ∈ c.sysLowNibbles := by
    rw [opN_wordNNN]
    exact List.contains_iff_mem.mp hnib
  rw [encode, decode_of_group0 c hclear hret (opGroup_wordNNN _ _), decodeGroup0_of_mem hmem, opNNN_wordNNN]

/-- Settles O1: outside group 0 the group, and in groups 5, 8, 9 and F the discriminant, picks the test of the decoder
that the word passes; every operand is a field that reads back what `encode` wrote there. -/
theorem decodeOfEncode : Obligations.DecodeOfEncode := by
  intro c i hwf
  cases i with
  | clearScreen | ret => rfl
  | sys addr => exact decode_encode_sys hwf
  | call | jumpTo | loadIImm => simp [encode, decode]
  | loadVImm | addVImm | skipIfEqVImm | skipIfNotEqVImm => simp [encode, decode]
  | skipIfEqualV2 => simp [encode, decode, decodeGroup5]
  | setEqual | bitWiseOrEqual | bitWiseAndEqual | bitWiseXorEqual | addV2 | subV2 | subNV2 | shiftRight | shiftLeft =>
    simp [encode, decode, decodeGroup8]
  | skipIfNotEqualV2 => simp [encode, decode, decodeGroup9]
  | draw => simp [encode, decode]
  | addIV | loadRegistersFromMem | saveRegistersToMem | bcdRegister => simp [encode, decode, decodeGroupF]

/-! ## Encoding what the decoder reads -/

/-- If the decoder's answer to `op` is an instruction, its word is `op` and it is well formed. -/
def EncodesBack (c : Config) (op : Word) (d : Decoded) : Prop :=
  ∀ i, d = .instr i → encode i = op ∧ WellFormed c i = true

theorem encodesBack_unknownInstruction (c : Config) (op w : Word) : EncodesBack c op (.unknownInstruction w) := nofun

theorem encodesBack_instr {c : Config} {op : Word} {i : Instr} (he : encode i = op) (hwf : WellFormed c i = true) :
    EncodesBack c op (.instr i) := by
  intro j hj
  cases hj
  exact ⟨he, hwf⟩

theorem encodesBack_ite {c : Config} {op : Word} {p : Prop} [Decidable p] {a b : Decoded}
    (ha : p → EncodesBack c op a) (hb : ¬ p → EncodesBack c op b) : EncodesBack c op (if p then a else b) := by
  split
  · exact ha ‹_›
  · exact hb ‹_›

section
variable {c : Config} {op : Word} {g : BitVec 4}

theorem encodesBack_nnn {i : Instr} (hg : opGroup op = g) (he : encode i = wordNNN g (opNNN op))
    (hwf : WellFormed c i = true) : EncodesBack c op (.instr i) :=
  encodesBack_instr (by rw [he, ← hg, wordNNN_fields]) hwf

theorem encodesBack_xkk {i : Instr} {kk : Byte} (hg : opGroup op = g) (hkk : opKK op = kk)
    (he : encode i = wordXKK g (opX op) kk) (hwf : WellFormed c i = true) : EncodesBack c op (.instr i) :=
  encodesBack_instr (by rw [he, ← hg, ← hkk, wordXKK_fields]) hwf

theorem encodesBack_xyn {i : Instr} {n : BitVec 4} (hg : opGroup op = g) (hn : opN op = n)
    (he : encode i = wordXYN g (opX op) (opY op) n) (hwf : WellFormed c i = true) : EncodesBack c op (.instr i) :=
  encodesBack_instr (by rw [he, ← hg, ← hn, wordXYN_fields]) hwf

/-- Group 0 after the two literals: its operand is neither of theirs, and the low nibble was accepted (R65). -/
theorem decodeGroup0_encodesBack (hg : opGroup op = 0x0#4) (hclear : op ≠ 0x00E0#16) (hret : op ≠ 0x00EE#16) :
    EncodesBack c op (decodeGroup0 c op) := by
  have hword : wordNNN 0x0#4 (opNNN op) = op := by rw [← hg, wordNNN_fields]
  have hlit : sysNotLiteral (opNNN op) = true := by
    refine Bool.and_eq_true_iff.mpr ⟨bne_iff_ne.mpr fun h => hclear ?_, bne_iff_ne.mpr fun h => hret ?_⟩ <;>
      rw [← hword, h] <;> rfl
  refine encodesBack_ite (fun hnib => encodesBack_instr hword ?_) fun _ => encodesBack_unknownInstruction c op _
  rw [opN_eq_extractLsb'_opNNN] at hnib
  exact Bool.and_eq_true_iff.mpr ⟨hlit, hnib⟩

theorem decodeGroup5_encodesBack (hg : opGroup op = 0x5#4) : EncodesBack c op (decodeGroup5 op) :=
  encodesBack_ite (fun hn => encodesBack_xyn hg hn rfl rfl) fun _ => encodesBack_unknownInstruction c op _

theorem decodeGroup9_encodesBack (hg : opGroup op = 0x9#4) : EncodesBack c op (decodeGroup9 op) :=
  encodesBack_ite (fun hn => encodesBack_xyn hg hn rfl rfl) fun _ => encodesBack_unknownInstruction c op _

theorem decodeGroup8_encodesBack (hg : opGroup op = 0x8#4) : EncodesBack c op (decodeGroup8 op) := by
  unfold decodeGroup8
  repeat' refine encodesBack_ite (fun hn => encodesBack_xyn hg hn rfl rfl) fun _ => ?_
  exact encodesBack_unknownInstruction c op _

theorem decodeGroupF_encodesBack (hg : opGroup op = 0xF#4) : EncodesBack c op (decodeGroupF op) := by
  unfold decodeGroupF
  repeat' refine encodesBack_ite (fun hkk => encodesBack_xkk hg hkk rfl rfl) fun _ => ?_
  exact encodesBack_unknownInstruction c op _

end

/-- Settles O2: along the tests of the decoder, each answer is the word of the fields it was read from. -/
theorem encodeOfDecode : Obligations.EncodeOfDecode := by
  intro c op
  change EncodesBack c op (decode c op)
  unfold decode
  refine encodesBack_ite (fun h => encodesBack_instr h.symm rfl) fun hclear => ?_
  refine encodesBack_ite (fun h => encodesBack_instr h.symm rfl) fun hret => ?_
  refine encodesBack_ite (fun hg => decodeGroup0_encodesBack hg hclear hret) fun _ => ?_
  refine encodesBack_ite (fun hg => encodesBack_nnn hg rfl rfl) fun _ => ?_
  refine encodesBack_ite (fun hg => encodesBack_nnn hg rfl rfl) fun _ => ?_
  refine encodesBack_ite (fun hg => encodesBack_xkk hg rfl rfl rfl) fun _ => ?_
  refine encodesBack_ite (fun hg => encodesBack_xkk hg rfl rfl rfl) fun _ => ?_
  refine encodesBack_ite decodeGroup5_encodesBack fun _ => ?_
  refine encodesBack_ite (fun hg => encodesBack_xkk hg rfl rfl rfl) fun _ => ?_
  refine encodesBack_ite (fun hg => encodesBack_xkk hg rfl rfl rfl) fun _ => ?_
  refine encodesBack_ite decodeGroup8_encodesBack fun _ => ?_
  refine encodesBack_ite decodeGroup9_encodesBack fun _ => ?_
  refine encodesBack_ite (fun hg => encodesBack_nnn hg rfl rfl) fun _ => ?_
  refine encodesBack_ite (fun hg => encodesBack_xyn hg rfl rfl rfl) fun _ => ?_
  refine encodesBack_ite decodeGroupF_encodesBack fun _ => ?_
  exact encodesBack_unknownInstruction c op op

/-! ## The illegal words (R70) -/

theorem allNibbles_contains (n : BitVec 4) : allNibbles.contains n = true := by
  revert n
  decide

/-- By default no word of group 0 is illegal (D3, log 6). -/
theorem decode_default_ne_of_group0 {op : Word} (hg : opGroup op = 0x0#4) (w : Word) :
    decode Config.default op ≠ .unknownInstruction w := by
  unfold decode
  rw [if_pos hg, decodeGroup0_of_mem (List.contains_iff_mem.mp (allNibbles_contains (opN op)))]
  split_ifs <;> exact nofun

theorem decodeGroup5_rejects_iff (op : Word) : decodeGroup5 op = .unknownInstruction op ↔ opN op ≠ 0x0#4 := by
  simp [decodeGroup5]

theorem decodeGroup9_rejects_iff (op : Word) : decodeGroup9 op = .unknownInstruction op ↔ opN op ≠ 0x0#4 := by
  simp [decodeGroup9]

theorem decodeGroupF_rejects_iff (op : Word) :
    decodeGroupF op = .unknownInstruction op ↔ opKK op ∉ [0x1E#8, 0x33#8, 0x55#8, 0x65#8] := by
  unfold decodeGroupF
  split_ifs <;> simp [*]

/-- The discriminants of group 8 that no instruction has are what is left of the sixteen nibbles. -/
theorem nibble_mem_group8 (n : BitVec 4) :
    n ∈ [0x8#4, 0x9#4, 0xA#4, 0xB#4, 0xC#4, 0xD#4, 0xF#4] ↔
      n ∉ [0x0#4, 0x1#4, 0x2#4, 0x3#4, 0x4#4, 0x5#4, 0x6#4, 0x7#4, 0xE#4] := by
  revert n
  decide

theorem decodeGroup8_rejects_iff (op : Word) :
    decodeGroup8 op = .unknownInstruction op ↔ opN op ∈ [0x8#4, 0x9#4, 0xA#4, 0xB#4, 0xC#4, 0xD#4, 0xF#4] := by
  rw [nibble_mem_group8]
  unfold decodeGroup8
  split_ifs <;> simp [*]

/-- Settles O3: group by group. Group 0 is all `Sys` by default; groups 5, 8, 9 and F reject what their sub-decode
rejects; B, C and E, which the decoder does not name, are illegal; the others are legal. -/
theorem illegalWordsAreTheTable : Obligations.IllegalWordsAreTheTable := by
  refine ⟨fun c op w => decode_unknownInstruction_eq, fun op => ?_⟩
  have hg : opGroup op ∈ allNibbles := List.contains_iff_mem.mp (allNibbles_contains (opGroup op))
  simp only [allNibbles, List.mem_cons, List.not_mem_nil, or_false] at hg
  rcases hg with h | h | h | h | h | h | h | h | h | h | h | h | h | h | h | h
  case inl => exact iff_of_false (decode_default_ne_of_group0 h op) (by simp [h])
  all_goals
    simp [decode, h, decodeGroup5_rejects_iff, decodeGroup8_rejects_iff, decodeGroup9_rejects_iff,
      decodeGroupF_rejects_iff]

/-- Settles O4: the decoder runs on each word. -/
theorem writtenWordsDecode : Obligations.WrittenWordsDecode :=
  ⟨rfl, rfl, rfl, rfl, rfl, rfl, rfl, rfl, rfl, rfl⟩

end Sys2Proof.Machine
end

section
/-! SUPPORT. The claims about `Call`, and about `Return` after it (spec/41_control_transfer.md R90, R91). -/

namespace Sys2Proof.Machine

/-! ## The stack's room -/

theorem stackFull_eq_true_of {c : Config} {k : List Address} {d : Nat} (hd : c.stackDepth = some d)
    (hfull : d ≤ k.length) : stackFull c k = true := by
  simp [stackFull, hd, hfull]

theorem stackFull_eq_false_iff (c : Config) (k : List Address) :
    stackFull c k = false ↔ ∀ d, c.stackDepth = some d → k.length < d := by
  cases hd : c.stackDepth <;> simp [stackFull, hd]

/-- When a push succeeds and what it gives (R28). -/
theorem push_eq_ok_iff (c : Config) (k k' : List Address) (a : Nat) :
    push c k a = .ok k' ↔ a ≤ 4095 ∧ stackFull c k = false ∧ k' = BitVec.ofNat 12 a :: k := by
  rcases push_cases c k a with ⟨hout, hp⟩ | ⟨-, hfull, hp⟩ | ⟨hle, hroom, hp⟩
  · simp [hp, Nat.not_le.mpr hout]
  · simp [hp, hfull]
  · simp [hp, hle, hroom, eq_comm]

/-! ## The meaning of `Call`, one equation per case -/

theorem exec_call_of_push {s : State} {k : List Address} (addr : Address)
    (h : push s.cfg s.stack s.pc.toNat = .ok k) :
    exec (.call addr) s = .next (((s.setStack k).setPc (zextAddress addr)).setResult .success) := by
  simp [exec, execCall, h]

theorem exec_call_of_push_error {s : State} {e : ExecError} (addr : Address)
    (h : push s.cfg s.stack s.pc.toNat = .error e) : exec (.call addr) s = .next (s.setResult (.error e)) := by
  simp [exec, execCall, h]

/-- A `Call` that succeeds has pushed. -/
theorem push_of_exec_call_success {s t : State} {addr : Address} (h : exec (.call addr) s = .next t)
    (hok : t.result = .success) : ∃ k, push s.cfg s.stack s.pc.toNat = .ok k ∧ t.stack = k := by
  cases hp : push s.cfg s.stack s.pc.toNat with
  | error e =>
    cases h.symm.trans (exec_call_of_push_error addr hp)
    cases hok
  | ok k =>
    cases h.symm.trans (exec_call_of_push addr hp)
    exact ⟨k, rfl, rfl⟩

/-- The entry a push makes of a return address is that address (R28, D6). -/
theorem ofNat_pc_toNat {w : Word} (h : w.toNat ≤ 4095) : (BitVec.ofNat 12 w.toNat).toNat = w.toNat :=
  Nat.mod_eq_of_lt (Nat.lt_succ_of_le h)

/-! ## The obligations -/

/-- Settles O15: under the two conditions the push succeeds, and its entry is the post-fetch `PC`. -/
theorem callPushesAndJumps : Obligations.CallPushesAndJumps := by
  intro s addr hle hroom
  have hpush := (push_eq_ok_iff s.cfg s.stack _ s.pc.toNat).mpr ⟨hle, (stackFull_eq_false_iff _ _).mpr hroom, rfl⟩
  exact ⟨_, BitVec.ofNat 12 s.pc.toNat, exec_call_of_push addr hpush, rfl, ofNat_pc_toNat hle, rfl,
    zextAddress_toNat addr, framePcStack_setStack_setPc s _ _ _⟩

/-- Settles O16: the push tests the return address first and the room second, and a `Call` whose push fails changes
nothing. -/
theorem callRefusesThePush : Obligations.CallRefusesThePush := by
  intro s addr
  constructor
  · intro hout
    have hpush : push s.cfg s.stack s.pc.toNat = .error .addressOutOfBounds := if_pos (by omega)
    exact ⟨_, exec_call_of_push_error addr hpush, rfl, frameAll_setResult s _⟩
  · intro d hle hd hfull
    have hpush : push s.cfg s.stack s.pc.toNat = .error .stackOverflow := by
      rw [push, if_neg (by omega), if_pos (stackFull_eq_true_of hd hfull)]
    exact ⟨_, exec_call_of_push_error addr hpush, rfl, frameAll_setResult s _⟩

/-- Settles O17: the entry on top of the stack that `Call` left is its post-fetch `PC`, and what lies below is the stack
before. -/
theorem callThenReturnRestores : Obligations.CallThenReturnRestores := by
  intro s t u addr hcall hok hu
  obtain ⟨k, hpush, ht⟩ := push_of_exec_call_success hcall hok
  obtain ⟨hle, -, rfl⟩ := (push_eq_ok_iff _ _ _ _).mp hpush
  have hpc : zextAddress (BitVec.ofNat 12 s.pc.toNat) = s.pc :=
    BitVec.eq_of_toNat_eq ((zextAddress_toNat _).trans (ofNat_pc_toNat hle))
  exact ⟨_, exec_ret_of_cons (hu.trans ht), rfl, hpc, rfl⟩

end Sys2Proof.Machine
end

section
/-! SUPPORT. The claims about what an instruction may write and which errors it may raise (spec/10_state.md,
spec/60_exceptions.md R147, spec/40_execute_cycle.md R85). -/

namespace Sys2Proof.Machine

/-! ## Only the parts an instruction's rule writes -/

/-- `t` differs from `s` only in the parts that the rule of `i` writes (and in what is returned to the host); where
memory is not written it is the same data. -/
structure WritesOnlyOwn (i : Instr) (s t : State) : Prop where
  regs : KeepsRegsBut (regsWritten i) s t
  cfg : t.cfg = s.cfg
  index : ¬ writesIndex i → t.i = s.i
  pc : ¬ writesPc i → t.pc = s.pc
  mem : ¬ writesMem i → t.mem = s.mem
  disp : ¬ writesDisp i → t.disp = s.disp
  stack : ¬ writesStack i → t.stack = s.stack

namespace WritesOnlyOwn

variable {i : Instr} {s t : State}

theorem refl (i : Instr) (s : State) : WritesOnlyOwn i s s :=
  ⟨fun _ _ => rfl, rfl, fun _ => rfl, fun _ => rfl, fun _ => rfl, fun _ => rfl, fun _ => rfl⟩

theorem setResult (h : WritesOnlyOwn i s t) (r : StepResult) : WritesOnlyOwn i s (t.setResult r) := { h with }

theorem setV (h : WritesOnlyOwn i s t) {r : RegIdx} (hr : r ∈ regsWritten i) (b : Byte) :
    WritesOnlyOwn i s (t.setV r b) :=
  { h with
    regs := fun j hj => (State.setV_getV_of_ne t b (ne_of_mem_of_not_mem hr hj).symm).trans (h.regs j hj) }

theorem setI (h : WritesOnlyOwn i s t) (hw : writesIndex i) (w : Word) : WritesOnlyOwn i s (t.setI w) :=
  { h with index := (absurd hw ·) }

theorem setPc (h : WritesOnlyOwn i s t) (hw : writesPc i) (w : Word) : WritesOnlyOwn i s (t.setPc w) :=
  { h with pc := (absurd hw ·) }

theorem setMem (h : WritesOnlyOwn i s t) (hw : writesMem i) (m : Memory) : WritesOnlyOwn i s (t.setMem m) :=
  { h with mem := (absurd hw ·) }

theorem setDisp (h : WritesOnlyOwn i s t) (hw : writesDisp i) (d : Display) : WritesOnlyOwn i s (t.setDisp d) :=
  { h with disp := (absurd hw ·) }

theorem setStack (h : WritesOnlyOwn i s t) (hw : writesStack i) (k : List Address) :
    WritesOnlyOwn i s (t.setStack k) :=
  { h with stack := (absurd hw ·) }

theorem skipWhen (h : WritesOnlyOwn i s t) (hw : writesPc i) (c : Bool) : WritesOnlyOwn i s (skipWhen c t) := by
  rw [skipWhen_eq]
  exact h.setPc hw _

theorem writeWithFlag (h : WritesOnlyOwn i s t) {x : RegIdx} (hx : x ∈ regsWritten i) (hvf : vf ∈ regsWritten i)
    (value flag : Byte) : WritesOnlyOwn i s (writeWithFlag t x value flag) :=
  (h.setV hx value).setV hvf flag

theorem foldl_setV (f : RegIdx → Byte) {rs : List RegIdx} (hrs : ∀ r ∈ rs, r ∈ regsWritten i)
    (h : WritesOnlyOwn i s t) : WritesOnlyOwn i s (rs.foldl (fun u r => u.setV r (f r)) t) := by
  induction rs generalizing t with
  | nil => exact h
  | cons r rs ih => exact ih (fun o ho => hrs o (.tail r ho)) (h.setV (hrs r (.head rs)) (f r))

theorem loadAll (base : Nat) {rs : List RegIdx} (hrs : ∀ r ∈ rs, r ∈ regsWritten i) (s : State) :
    WritesOnlyOwn i s (loadAll base rs s).1 := by
  rw [loadAll_eq]
  exact foldl_setV _ (fun r hr => hrs r ((List.takeWhile_sublist _).mem hr)) (refl i s)

theorem storeAll (cs : List (Nat × Byte)) (hw : writesMem i) (s : State) : WritesOnlyOwn i s (storeAll cs s).1 := by
  rw [storeAll_eq]
  exact (refl i s).setMem hw _

end WritesOnlyOwn

/-- The outcome of instruction `i` from `s` is a next state that differs from `s` only in the parts `i` writes. -/
def EndsInOwn (i : Instr) (s : State) (o : Host.Outcome State Fault Refusal) : Prop :=
  ∃ t, o = .next t ∧ WritesOnlyOwn i s t

section
variable {i : Instr} {s u : State}

theorem endsInOwn_complete (h : WritesOnlyOwn i s u) : EndsInOwn i s (complete u) := ⟨_, rfl, h.setResult _⟩

theorem endsInOwn_raise (e : ExecError) : EndsInOwn i s (raise e s) := ⟨_, rfl, (WritesOnlyOwn.refl i s).setResult _⟩

theorem endsInOwn_finish {p : State × Option ExecError} (h : WritesOnlyOwn i s p.1) : EndsInOwn i s (finish p) :=
  ⟨_, finish_next p, h.setResult _⟩

end

theorem execReturn_endsInOwn (s : State) : EndsInOwn .ret s (execReturn s) := by
  unfold execReturn
  rcases pop_cases s.stack with ⟨-, hp⟩ | ⟨a, k, -, hp⟩ <;> rw [hp]
  · exact endsInOwn_raise _
  · exact endsInOwn_complete (((WritesOnlyOwn.refl _ s).setStack (by simp [writesStack]) k).setPc
      (by simp [writesPc]) _)

theorem execCall_endsInOwn (addr : Address) (s : State) : EndsInOwn (.call addr) s (execCall addr s) := by
  unfold execCall
  cases push s.cfg s.stack s.pc.toNat with
  | error e => exact endsInOwn_raise e
  | ok k =>
    exact endsInOwn_complete (((WritesOnlyOwn.refl _ s).setStack (by simp [writesStack]) k).setPc
      (by simp [writesPc]) _)

theorem execDraw_endsInOwn (x y : RegIdx) (len : Fin 16) (s : State) :
    EndsInOwn (.draw x y len) s (execDraw x y len s) := by
  unfold execDraw
  cases readBytes s.mem (effAddr s 0) len.val with
  | error e => exact endsInOwn_raise e
  | ok rows => exact endsInOwn_finish ((WritesOnlyOwn.refl _ s).setDisp (by simp [writesDisp]) _)

/-- Everything the meaning of an instruction may write (R21, R23, R24, R27, R49, R130). -/
theorem exec_endsInOwn (i : Instr) (s : State) : EndsInOwn i s (exec i s) := by
  have hrefl := WritesOnlyOwn.refl i s
  cases i with
  | clearScreen => exact endsInOwn_complete (hrefl.setDisp (by simp [writesDisp]) _)
  | ret => exact execReturn_endsInOwn s
  | call addr => exact execCall_endsInOwn addr s
  | jumpTo addr => exact endsInOwn_complete (hrefl.setPc (by simp [writesPc]) _)
  | sys addr => exact endsInOwn_complete hrefl
  | skipIfEqVImm | skipIfNotEqVImm | skipIfEqualV2 | skipIfNotEqualV2 =>
    exact endsInOwn_complete (hrefl.skipWhen (by simp [writesPc]) _)
  | loadVImm | addVImm | setEqual | bitWiseOrEqual | bitWiseAndEqual | bitWiseXorEqual =>
    exact endsInOwn_complete (hrefl.setV (by simp [regsWritten]) _)
  | addV2 | subV2 | subNV2 | shiftRight | shiftLeft =>
    exact endsInOwn_complete (hrefl.writeWithFlag (by simp [regsWritten]) (by simp [regsWritten]) _ _)
  | loadIImm | addIV => exact endsInOwn_complete (hrefl.setI (by simp [writesIndex]) _)
  | loadRegistersFromMem n => exact endsInOwn_finish (.loadAll _ (fun _ hr => hr) s)
  | saveRegistersToMem n => exact endsInOwn_finish (.storeAll _ (by simp [writesMem]) s)
  | bcdRegister r => exact endsInOwn_finish (.storeAll _ (by simp [writesMem]) s)
  | draw x y len => exact execDraw_endsInOwn x y len s

theorem exec_writesOnlyOwn {i : Instr} {s t : State} (h : exec i s = .next t) : WritesOnlyOwn i s t := by
  obtain ⟨u, hu, hown⟩ := exec_endsInOwn i s
  cases h.symm.trans hu
  exact hown

/-! ## The instructions that raise -/

theorem mem_mayRaise_of_exec {i : Instr} {s t : State} {e : ExecError} (h : exec i s = .next t)
    (he : t.result = .error e) : e ∈ mayRaise i := by
  obtain ⟨u, hu, ⟨hok, -⟩ | ⟨e', hmem, he', -⟩⟩ := exec_endsOrRaises i s <;> cases h.symm.trans hu
  · cases he.symm.trans hok
  · cases he.symm.trans he'
    exact hmem

/-- The six rows of R147. -/
theorem mayRaise_cases {i : Instr} {e : ExecError} (h : e ∈ mayRaise i) :
    i = .ret ∨ (∃ addr, i = .call addr) ∨ (∃ n, i = .loadRegistersFromMem n) ∨ (∃ n, i = .saveRegistersToMem n) ∨
      (∃ r, i = .bcdRegister r) ∨ ∃ x y len, i = .draw x y len := by
  cases i with
  | ret | call | loadRegistersFromMem | saveRegistersToMem | bcdRegister | draw => simp
  | _ => exact absurd h List.not_mem_nil

theorem not_writesIndex_of_mayRaise {i : Instr} {e : ExecError} (h : e ∈ mayRaise i) : ¬ writesIndex i := by
  rcases mayRaise_cases h with rfl | ⟨_, rfl⟩ | ⟨_, rfl⟩ | ⟨_, rfl⟩ | ⟨_, rfl⟩ | ⟨_, _, _, rfl⟩ <;> simp [writesIndex]

theorem regsWritten_eq_nil_of_mayRaise {i : Instr} {e : ExecError} (h : e ∈ mayRaise i)
    (hload : ∀ n, i ≠ .loadRegistersFromMem n) : regsWritten i = [] := by
  rcases mayRaise_cases h with rfl | ⟨_, rfl⟩ | ⟨n, rfl⟩ | ⟨_, rfl⟩ | ⟨_, rfl⟩ | ⟨_, _, _, rfl⟩
  case inr.inr.inl => exact absurd rfl (hload n)
  all_goals rfl

theorem not_writesDisp_of_mayRaise {i : Instr} {e : ExecError} (h : e ∈ mayRaise i)
    (hdraw : ∀ x y len, i ≠ .draw x y len) : ¬ writesDisp i := by
  rintro (⟨x, y, len, rfl⟩ | rfl)
  · exact hdraw x y len rfl
  · exact absurd h List.not_mem_nil

/-- Everything an instruction can do to the stack (R27): keep it, or, in success, push the post-fetch `PC` or pop. -/
theorem exec_stack_cases {i : Instr} {s t : State} (h : exec i s = .next t) :
    t.stack = s.stack ∨ (t.result = .success ∧
      (push s.cfg s.stack s.pc.toNat = .ok t.stack ∨ ∃ a, s.stack = a :: t.stack)) := by
  by_cases hw : writesStack i
  · rcases hw with ⟨addr, rfl⟩ | rfl
    · cases hp : push s.cfg s.stack s.pc.toNat with
      | error e =>
        cases h.symm.trans (exec_call_of_push_error addr hp)
        exact .inl rfl
      | ok k =>
        cases h.symm.trans (exec_call_of_push addr hp)
        exact .inr ⟨rfl, .inl rfl⟩
    · cases hs : s.stack with
      | nil =>
        cases h.symm.trans (exec_ret_of_nil hs)
        exact .inl hs
      | cons a k =>
        cases h.symm.trans (exec_ret_of_cons hs)
        exact .inr ⟨rfl, .inr ⟨a, rfl⟩⟩
  · exact .inl ((exec_writesOnlyOwn h).stack hw)

theorem exec_stack_of_error {i : Instr} {s t : State} {e : ExecError} (h : exec i s = .next t)
    (he : t.result = .error e) : t.stack = s.stack := by
  rcases exec_stack_cases h with hkeep | ⟨hok, -⟩
  · exact hkeep
  · cases he.symm.trans hok

/-! ## The obligations -/

/-- Settles O47: `WritesOnlyOwn`, memory being the same data where the statement asks that it reads alike. -/
theorem onlyItsOwnPartIsWritten : Obligations.OnlyItsOwnPartIsWritten := by
  intro i s t h
  have hown := exec_writesOnlyOwn h
  exact ⟨hown.regs, hown.cfg, hown.index, hown.pc, fun hw a => by rw [hown.mem hw], hown.disp, hown.stack⟩

/-- Settles O45: the errors of `exec_endsOrRaises` are those of the table. -/
theorem onlyTheTabledErrors : Obligations.OnlyTheTabledErrors :=
  fun _ _ _ _ h he => mem_mayRaise_of_exec h he

/-- Settles O10: each of the three ways a step goes ends in a next state. -/
theorem everyStepAnswers : Obligations.EveryStepAnswers := by
  intro s
  rcases step_cases s with ⟨e, -, hs⟩ | ⟨op, w, -, -, hs⟩ | ⟨op, i, -, -, hs⟩
  · exact ⟨_, hs, .inr ⟨e, rfl⟩⟩
  · exact ⟨_, hs, .inr ⟨_, rfl⟩⟩
  · obtain ⟨t, ht, ⟨hok, -⟩ | ⟨e, -, he, -⟩⟩ := exec_endsOrRaises i (advance s)
    · exact ⟨t, hs.trans ht, .inl hok⟩
    · exact ⟨t, hs.trans ht, .inr ⟨e, he⟩⟩

/-- Settles O46: a failed fetch and an illegal word write nothing but the result and `PC`; a legal word writes only its
own parts, and the six instructions that raise write few. -/
theorem stateAfterAnError : Obligations.StateAfterAnError := by
  intro s t e hs he
  rcases step_cases s with ⟨e', hf, hstep⟩ | ⟨op, w, hf, hd, hstep⟩ | ⟨op, i, hf, hd, hstep⟩
  · cases hs.symm.trans hstep
    exact ⟨rfl, rfl, rfl, fun _ => frameAll_setResult s _, fun op hok => nomatch hf.symm.trans hok⟩
  · cases hs.symm.trans hstep
    exact ⟨rfl, rfl, rfl, (fun ⟨_, he'⟩ => nomatch hf.symm.trans he'),
      fun _ _ => ⟨rfl, fun _ _ => rfl, fun _ _ => rfl, fun _ => rfl⟩⟩
  · have hexec : exec i (advance s) = .next t := hstep.symm.trans hs
    have hown := exec_writesOnlyOwn hexec
    have hmem := mem_mayRaise_of_exec hexec he
    have hstack := exec_stack_of_error hexec he
    have hpc := exec_pc_of_error hexec he
    refine ⟨hown.index (not_writesIndex_of_mayRaise hmem), hstack, hown.cfg,
      (fun ⟨_, he'⟩ => nomatch hf.symm.trans he'), fun op' hf' => ?_⟩
    cases hf.symm.trans hf'
    refine ⟨hpc, fun hload j => ?_, fun hw a => ?_, fun hdraw => ?_⟩
    · have hnil := regsWritten_eq_nil_of_mayRaise hmem fun n hn => hload n (hn ▸ hd)
      exact hown.regs j (hnil ▸ List.not_mem_nil)
    · exact congrArg (Memory.get · a) (hown.mem (hw i hd))
    · exact hown.disp (not_writesDisp_of_mayRaise hmem fun x y len hi => hdraw x y len (hi ▸ hd))

end Sys2Proof.Machine
end

section
/-! SUPPORT. The claims about the invariant of reachable states (spec/10_state.md R36) and the constant configuration
(R30). -/

namespace Sys2Proof.Machine

/-! ## `PC` after a fetch, and after an instruction -/

/-- What a successful fetch leaves in the advanced `PC` (R82): an even number from 2 to 4096. -/
def PcFetched (s : State) : Prop := s.pc.toNat % 2 = 0 ∧ 2 ≤ s.pc.toNat ∧ s.pc.toNat ≤ 4096

theorem pcFetched_advance {s : State} {op : Word} (hf : fetch s = .ok op) : PcFetched (advance s) := by
  have hadd : (advance s).pc.toNat = s.pc.toNat + 2 := pc_add_two_toNat_of_fetch hf
  have hle := pc_add_two_le_of_fetch hf
  obtain ⟨-, heven, -⟩ := (fetch_eq_ok_iff s op).mp hf
  unfold PcFetched
  omega

theorem pcOk_of_pcFetched {s t : State} (hpc : PcFetched s) (h : t.pc = s.pc) : PcOk t := by
  unfold PcOk
  unfold PcFetched at hpc
  rw [h]
  omega

theorem pcOk_of_zextAddress {t : State} (addr : Address) (h : t.pc = zextAddress addr) : PcOk t := by
  have hlt := addr.isLt
  unfold PcOk
  rw [h, zextAddress_toNat]
  omega

/-- A skip from an advanced `PC` goes at most 2 past the top of memory, and stays even. -/
theorem pcOk_of_skipsWhen {p : Prop} {s t : State} {o : Host.Outcome State Fault Refusal} (hpc : PcFetched s)
    (hskip : SkipsWhen p s o) (h : o = .next t) : PcOk t := by
  obtain ⟨u, hu, -, -, hyes, hno⟩ := hskip
  cases h.symm.trans hu
  by_cases hp : p
  · have hadd := hyes hp
    unfold PcOk
    unfold PcFetched at hpc
    bv_omega
  · exact pcOk_of_pcFetched hpc (hno hp)

theorem exec_pcOk {i : Instr} {s t : State} (hpc : PcFetched s) (h : exec i s = .next t) : PcOk t := by
  by_cases hw : writesPc i
  · rcases hw with ⟨r, imm, rfl⟩ | ⟨r, imm, rfl⟩ | ⟨x, y, rfl⟩ | ⟨x, y, rfl⟩ | ⟨addr, rfl⟩ | ⟨addr, rfl⟩ | rfl
    · exact pcOk_of_skipsWhen hpc (exec_skipIfEqVImm_skipsWhen r imm s) h
    · exact pcOk_of_skipsWhen hpc (exec_skipIfNotEqVImm_skipsWhen r imm s) h
    · exact pcOk_of_skipsWhen hpc (exec_skipIfEqualV2_skipsWhen x y s) h
    · exact pcOk_of_skipsWhen hpc (exec_skipIfNotEqualV2_skipsWhen x y s) h
    · cases h
      exact pcOk_of_zextAddress addr rfl
    · cases hp : push s.cfg s.stack s.pc.toNat with
      | error e =>
        cases h.symm.trans (exec_call_of_push_error addr hp)
        exact pcOk_of_pcFetched hpc rfl
      | ok k =>
        cases h.symm.trans (exec_call_of_push addr hp)
        exact pcOk_of_zextAddress addr rfl
    · cases hs : s.stack with
      | nil =>
        cases h.symm.trans (exec_ret_of_nil hs)
        exact pcOk_of_pcFetched hpc rfl
      | cons a k =>
        cases h.symm.trans (exec_ret_of_cons hs)
        exact pcOk_of_zextAddress a rfl
  · exact pcOk_of_pcFetched hpc ((exec_writesOnlyOwn h).pc hw)

/-! ## The stack -/

theorem exec_stackOk {i : Instr} {s t : State} (hpc : PcFetched s) (hk : StackOk s) (h : exec i s = .next t) :
    StackOk t := by
  unfold StackOk at hk ⊢
  rcases exec_stack_cases h with hkeep | ⟨-, hpush | ⟨a, hpop⟩⟩
  · rwa [hkeep]
  · obtain ⟨hle, -, hcons⟩ := (push_eq_ok_iff _ _ _ _).mp hpush
    obtain ⟨heven, htwo, -⟩ := hpc
    rw [hcons, List.forall_mem_cons, ofNat_pc_toNat hle]
    exact ⟨⟨heven, htwo⟩, hk⟩
  · rw [hpop, List.forall_mem_cons] at hk
    exact hk.2

theorem exec_depthOk {i : Instr} {s t : State} (hd : DepthOk s) (h : exec i s = .next t) : DepthOk t := by
  unfold DepthOk at hd ⊢
  rw [(exec_writesOnlyOwn h).cfg]
  intro d hdepth
  rcases exec_stack_cases h with hkeep | ⟨-, hpush | ⟨a, hpop⟩⟩
  · rw [hkeep]
    exact hd d hdepth
  · obtain ⟨-, hroom, hcons⟩ := (push_eq_ok_iff _ _ _ _).mp hpush
    rw [hcons]
    exact (stackFull_eq_false_iff _ _).mp hroom d hdepth
  · have hle := hd d hdepth
    rw [hpop] at hle
    exact (Nat.le_succ _).trans hle

/-! ## Memory -/

theorem finish_storeAll_wf {cs : List (Nat × Byte)} {s t : State} (hm : s.mem.wf)
    (h : finish (storeAll cs s) = .next t) : t.mem.wf := by
  rw [finish_next] at h
  cases h
  exact storeAll_wf cs s hm

theorem exec_mem_wf {i : Instr} {s t : State} (hm : s.mem.wf) (h : exec i s = .next t) : t.mem.wf := by
  by_cases hw : writesMem i
  · rcases hw with ⟨n, rfl⟩ | ⟨r, rfl⟩ <;> exact finish_storeAll_wf hm h
  · rwa [(exec_writesOnlyOwn h).mem hw]

/-! ## The step and the host's operations -/

/-- An instruction run after a fetch keeps the invariant. -/
theorem exec_inv {i : Instr} {s t : State} (hpc : PcFetched s) (hinv : s.Inv) (h : exec i s = .next t) : t.Inv := by
  obtain ⟨hm, -, hk, hd⟩ := hinv
  exact ⟨exec_mem_wf hm h, exec_pcOk hpc h, exec_stackOk hpc hk h, exec_depthOk hd h⟩

theorem inv_setPc {s : State} (hinv : s.Inv) {w : Word} (hpc : PcOk (s.setPc w)) : (s.setPc w).Inv := by
  obtain ⟨hm, -, hk, hd⟩ := hinv
  exact ⟨hm, hpc, hk, hd⟩

theorem inv_resetWith (c : Config) : (State.resetWith c).Inv :=
  ⟨Memory.wf_nil, pcOk_of_zextAddress 0x200#12 rfl, fun _ ha => absurd ha List.not_mem_nil, fun d _ => Nat.zero_le d⟩

theorem load_inv (bytes : List Byte) (s : State) : (load bytes s).1.Inv := by
  unfold load
  split
  · exact inv_resetWith s.cfg
  · rename_i hfits
    obtain ⟨-, hpc, hk, hd⟩ := inv_resetWith s.cfg
    have hend : programBase + bytes.length ≤ memSize := Nat.add_le_of_le_sub' (by decide) (Nat.not_lt.mp hfits)
    exact ⟨copyBytes_wf bytes [] programBase Memory.wf_nil hend, hpc, hk, hd⟩

theorem load_cfg (bytes : List Byte) (s : State) : (load bytes s).1.cfg = s.cfg := by
  unfold load
  split <;> rfl

/-- The display port's flip changes the grid at most (R136). -/
theorem hostFlipPixel_eq_setDisp (px py : Nat) (s : State) : ∃ d, (hostFlipPixel px py s).1 = s.setDisp d := by
  unfold hostFlipPixel
  split
  · exact ⟨s.disp, rfl⟩
  · exact ⟨_, rfl⟩

/-- The state an operation leaves, where it answers at once. -/
theorem fst_eq_of_next {p : State × Reply} {t : State} {r : Reply}
    (h : (.next p : Host.Outcome (State × Reply) Fault Refusal) = .next (t, r)) : p.1 = t := by
  cases h
  rfl

theorem step_of_hostOp_step {s t : State} {r : Reply} (h : hostOp .step s = .next (t, r)) : step s = .next t := by
  simp only [hostOp] at h
  cases hs : step s with
  | next u =>
    rw [hs] at h
    cases h
    rfl
  | fault f => cases f
  | refused r =>
    rw [hs] at h
    cases h

theorem step_cfg {s t : State} (h : step s = .next t) : t.cfg = s.cfg := by
  rcases step_cases s with ⟨e, -, hs⟩ | ⟨op, w, -, -, hs⟩ | ⟨op, i, -, -, hs⟩
  · cases h.symm.trans hs
    rfl
  · cases h.symm.trans hs
    rfl
  · have hown := exec_writesOnlyOwn (hs.symm.trans h)
    exact hown.cfg

/-! ## The obligations -/

/-- Settles O53: a failed fetch and an illegal word move `PC` at most by the advance, and an instruction run after a
fetch keeps each part of the invariant. -/
theorem stepKeepsTheInvariant : Obligations.StepKeepsTheInvariant := by
  intro s t hinv h
  rcases step_cases s with ⟨e, -, hs⟩ | ⟨op, w, hf, -, hs⟩ | ⟨op, i, hf, -, hs⟩
  · cases h.symm.trans hs
    exact hinv
  · cases h.symm.trans hs
    exact inv_setPc hinv (pcOk_of_pcFetched (pcFetched_advance hf) rfl)
  · have hpc := pcFetched_advance hf
    exact exec_inv hpc (inv_setPc hinv (pcOk_of_pcFetched hpc rfl)) (hs.symm.trans h)

/-- Settles O52: at RESET memory and stack are empty and `PC` is 0x200. -/
theorem resetMeetsTheInvariant : Obligations.ResetMeetsTheInvariant :=
  ⟨inv_resetWith Config.default, inv_resetWith⟩

/-- Settles O54: RESET and LOAD establish the invariant, STEP keeps it, and the display port changes the grid alone. -/
theorem hostOperationsKeepTheInvariant : Obligations.HostOperationsKeepTheInvariant := by
  intro op s t r hinv h
  cases op with
  | reset l =>
    rw [← fst_eq_of_next h]
    exact inv_resetWith _
  | load bytes =>
    rw [← fst_eq_of_next h]
    exact load_inv bytes s
  | step => exact stepKeepsTheInvariant s t hinv (step_of_hostOp_step h)
  | readPixel px py =>
    rw [← fst_eq_of_next h]
    exact hinv
  | flipPixel px py =>
    obtain ⟨d, hd⟩ := hostFlipPixel_eq_setDisp px py s
    rw [← fst_eq_of_next h, hd]
    exact hinv
  | clearDisplay =>
    rw [← fst_eq_of_next h]
    exact hinv

/-- Settles O48: no instruction writes the configuration, LOAD resets the rest, and the display port changes the grid
alone. -/
theorem configurationIsConstant : Obligations.ConfigurationIsConstant := by
  intro op s t r hreset h
  cases op with
  | reset l => exact absurd rfl (hreset l)
  | load bytes =>
    rw [← fst_eq_of_next h]
    exact load_cfg bytes s
  | step => exact step_cfg (step_of_hostOp_step h)
  | readPixel px py => rw [← fst_eq_of_next h]
  | flipPixel px py =>
    obtain ⟨d, hd⟩ := hostFlipPixel_eq_setDisp px py s
    rw [← fst_eq_of_next h, hd]
    rfl
  | clearDisplay =>
    rw [← fst_eq_of_next h]
    rfl

end Sys2Proof.Machine
end

section
/-! SUPPORT. The claims about what a step does not read (spec/10_state.md R30, R32, R33), and about the steps that
repeat themselves: a failed fetch and a jump to itself (spec/40_execute_cycle.md R81, spec/41_control_transfer.md R92). -/

namespace Sys2Proof.Machine

/-! ## A change of the state that an operation does not see -/

/-- `f` changes nothing that an instruction other than the shifts and the two of the display reads or writes. -/
structure Unread (f : State → State) : Prop where
  getV : ∀ s r, (f s).getV r = s.getV r
  i : ∀ s, (f s).i = s.i
  pc : ∀ s, (f s).pc = s.pc
  mem : ∀ s, (f s).mem = s.mem
  stack : ∀ s, (f s).stack = s.stack
  depth : ∀ s, (f s).cfg.stackDepth = s.cfg.stackDepth
  setV : ∀ s r b, (f s).setV r b = f (s.setV r b)
  setI : ∀ s w, (f s).setI w = f (s.setI w)
  setPc : ∀ s w, (f s).setPc w = f (s.setPc w)
  setMem : ∀ s m, (f s).setMem m = f (s.setMem m)
  setStack : ∀ s k, (f s).setStack k = f (s.setStack k)

/-- Instruction `i` makes the same changes from `f s` as from `s`, and meets the same error or none. -/
def RunsAlike (f : State → State) (i : Instr) (s : State) : Prop :=
  ∃ p, exec i s = finish p ∧ exec i (f s) = finish (Prod.map f id p)

section
variable {f : State → State}

theorem runsAlike_complete {i : Instr} {s : State} (u : State) (h : exec i s = complete u)
    (hf : exec i (f s) = complete (f u)) : RunsAlike f i s :=
  ⟨(u, none), h, hf⟩

theorem storeAll_map (hf : Unread f) (cs : List (Nat × Byte)) (s : State) :
    storeAll cs (f s) = Prod.map f id (storeAll cs s) := by
  simp [storeAll_eq, hf.mem, hf.setMem]

theorem loadAll_map (hf : Unread f) (base : Nat) (rs : List RegIdx) (s : State) :
    loadAll base rs (f s) = Prod.map f id (loadAll base rs s) := by
  induction rs generalizing s with
  | nil => rfl
  | cons o rs ih =>
    simp only [loadAll, hf.mem]
    cases memRead1 s.mem (base + o.val) with
    | error e => rfl
    | ok x => simp only [hf.setV, ih]

theorem skipWhen_map (hf : Unread f) (c : Bool) (s : State) : skipWhen c (f s) = f (skipWhen c s) := by
  simp [skipWhen_eq, nextPc, hf.pc, hf.setPc]

theorem writeWithFlag_map (hf : Unread f) (s : State) (x : RegIdx) (value flag : Byte) :
    writeWithFlag (f s) x value flag = f (writeWithFlag s x value flag) := by
  simp [writeWithFlag, hf.setV]

theorem execReturn_runsAlike (hf : Unread f) (s : State) : RunsAlike f .ret s := by
  cases hs : s.stack with
  | nil => exact ⟨(s, some _), exec_ret_of_nil hs, exec_ret_of_nil ((hf.stack s).trans hs)⟩
  | cons a k =>
    refine runsAlike_complete _ (exec_ret_of_cons hs) ?_
    rw [exec_ret_of_cons ((hf.stack s).trans hs), hf.setStack, hf.setPc]
    rfl

theorem execCall_runsAlike (hf : Unread f) (addr : Address) (s : State) : RunsAlike f (.call addr) s := by
  have hpush : push (f s).cfg (f s).stack (f s).pc.toNat = push s.cfg s.stack s.pc.toNat := by
    have hfull : stackFull (f s).cfg s.stack = stackFull s.cfg s.stack := by
      unfold stackFull
      rw [hf.depth]
    rw [push, hf.stack, hf.pc, hfull, push]
  cases hp : push s.cfg s.stack s.pc.toNat with
  | error e => exact ⟨(s, some e), exec_call_of_push_error addr hp, exec_call_of_push_error addr (hpush.trans hp)⟩
  | ok k =>
    refine runsAlike_complete _ (exec_call_of_push addr hp) ?_
    rw [exec_call_of_push addr (hpush.trans hp), hf.setStack, hf.setPc]
    rfl

theorem execDraw_runsAlike (hf : Unread f) (hdisp : ∀ s, (f s).disp = s.disp)
    (hset : ∀ s d, (f s).setDisp d = f (s.setDisp d)) (x y : RegIdx) (len : Fin 16) (s : State) :
    RunsAlike f (.draw x y len) s := by
  unfold RunsAlike
  simp only [exec, execDraw, effAddr, hf.mem, hf.i]
  cases readBytes s.mem (s.i.toNat + 0) len.val with
  | error e => exact ⟨(s, some e), rfl, rfl⟩
  | ok rows =>
    refine ⟨_, rfl, congrArg finish ?_⟩
    simp [drawRows, hf.getV, hdisp, hset]

/-- An instruction does not see a change of the state outside what it reads. -/
theorem exec_runsAlike (hf : Unread f) (i : Instr) (s : State)
    (hshift : ((∀ x y, i ≠ .shiftRight x y) ∧ ∀ x y, i ≠ .shiftLeft x y) ∨
      ∀ s, (f s).cfg.legacyShift = s.cfg.legacyShift)
    (hdisp : ¬ writesDisp i ∨ (∀ s, (f s).disp = s.disp) ∧ ∀ s d, (f s).setDisp d = f (s.setDisp d)) :
    RunsAlike f i s := by
  cases i with
  | ret => exact execReturn_runsAlike hf s
  | call addr => exact execCall_runsAlike hf addr s
  | clearScreen =>
    obtain hw | ⟨-, hset⟩ := hdisp
    · exact absurd (by simp [writesDisp]) hw
    · exact runsAlike_complete _ rfl (congrArg complete (hset s _))
  | draw x y len =>
    obtain hw | ⟨hget, hset⟩ := hdisp
    · exact absurd (by simp [writesDisp]) hw
    · exact execDraw_runsAlike hf hget hset x y len s
  | shiftRight x y =>
    obtain ⟨hne, -⟩ | hcfg := hshift
    · exact absurd rfl (hne x y)
    · exact runsAlike_complete _ rfl (by simp [exec, execShiftRight, shiftSource, hcfg, hf.getV, writeWithFlag_map hf])
  | shiftLeft x y =>
    obtain ⟨-, hne⟩ | hcfg := hshift
    · exact absurd rfl (hne x y)
    · exact runsAlike_complete _ rfl (by simp [exec, execShiftLeft, shiftSource, hcfg, hf.getV, writeWithFlag_map hf])
  | loadRegistersFromMem n =>
    refine ⟨_, rfl, congrArg finish ?_⟩
    rw [loadAll_map hf, effAddr, hf.i]
    rfl
  | saveRegistersToMem n =>
    refine ⟨_, rfl, congrArg finish ?_⟩
    simp only [storeAll_map hf, saveCells, effAddr, hf.i, hf.getV]
  | bcdRegister r =>
    refine ⟨_, rfl, congrArg finish ?_⟩
    simp only [storeAll_map hf, bcdCells, effAddr, hf.i, hf.getV]
  | skipIfEqVImm | skipIfNotEqVImm | skipIfEqualV2 | skipIfNotEqualV2 =>
    refine runsAlike_complete _ rfl ?_
    simp [exec, execSkipIfEqVImm, execSkipIfNotEqVImm, execSkipIfEqualV2, execSkipIfNotEqualV2, hf.getV,
      skipWhen_map hf]
  | addV2 | subV2 | subNV2 =>
    refine runsAlike_complete _ rfl ?_
    simp [exec, execAddV2, execSubV2, execSubNV2, hf.getV, writeWithFlag_map hf]
  | loadVImm | addVImm | setEqual | bitWiseOrEqual | bitWiseAndEqual | bitWiseXorEqual =>
    refine runsAlike_complete _ rfl ?_
    simp [exec, execLoadVImm, execAddVImm, execSetEqual, execBitWiseOrEqual, execBitWiseAndEqual,
      execBitWiseXorEqual, hf.getV, hf.setV]
  | loadIImm | addIV =>
    refine runsAlike_complete _ rfl ?_
    simp [exec, execLoadIImm, execAddIV, hf.getV, hf.i, hf.setI]
  | jumpTo addr => exact runsAlike_complete _ rfl (congrArg complete (hf.setPc s _))
  | sys addr => exact runsAlike_complete _ rfl rfl

/-- Where the change commutes with a write of `result`, the outcomes are a next state and that state changed. -/
theorem exec_next_of_runsAlike (hres : ∀ s r, (f s).setResult r = f (s.setResult r)) {i : Instr} {s t : State}
    (hrun : RunsAlike f i s) (h : exec i s = .next t) : exec i (f s) = .next (f t) := by
  obtain ⟨p, hp, hp'⟩ := hrun
  rw [finish_next] at hp hp'
  cases h.symm.trans hp
  rw [hp', ← hres]
  rfl

end

/-! ## `result` is not read -/

theorem unread_setResult (r : StepResult) : Unread (·.setResult r) := by
  constructor <;> intros <;> rfl

theorem exec_setResult (i : Instr) (s : State) (r : StepResult) : exec i (s.setResult r) = exec i s := by
  obtain ⟨p, hp, hp'⟩ := exec_runsAlike (unread_setResult r) i s (.inr fun _ => rfl)
    (.inr ⟨fun _ => rfl, fun _ _ => rfl⟩)
  rw [hp, hp', finish_next, finish_next]
  rfl

/-- Settles O50: every instruction runs alike whatever `result` holds, and the end of a step overwrites it. -/
theorem resultIsNeverRead : Obligations.ResultIsNeverRead := by
  intro s r
  rcases step_cases s with ⟨e, hf, hs⟩ | ⟨op, w, hf, hd, hs⟩ | ⟨op, i, hf, hd, hs⟩
  · rw [hs, step_of_fetch_error (s := s.setResult r) hf]
    rfl
  · rw [step_of_unknownInstruction hf hd, step_of_unknownInstruction (s := s.setResult r) hf hd]
    rfl
  · rw [hs, step_of_instr (s := s.setResult r) hf hd]
    exact exec_setResult i (advance s) r

/-! ## Steps that repeat themselves -/

/-- A step that changes `result` alone is taken again and again. -/
theorem runSteps_of_fixed {s : State} {r : StepResult} (h : step s = .next (s.setResult r)) (k : Nat) :
    runSteps (k + 1) s = .next (s.setResult r) := by
  induction k generalizing s with
  | zero => simp [runSteps, h]
  | succ k ih =>
    have hagain : step (s.setResult r) = .next ((s.setResult r).setResult r) := (resultIsNeverRead s r).trans h
    have hrest : runSteps (k + 1) (s.setResult r) = .next (s.setResult r) := ih hagain
    simpa [runSteps, h] using hrest

/-- Settles O7: a step whose fetch fails changes `result` alone. -/
theorem failedFetchIsStuck : Obligations.FailedFetchIsStuck :=
  fun _ k => ⟨fun hodd hin => runSteps_of_fixed (step_of_pc_odd hin hodd) k,
    fun hout => runSteps_of_fixed (step_of_pc_outOfRange hout) k⟩

/-- Settles O19: a step that jumps to itself changes `result` alone. -/
theorem selfJumpIsFixed : Obligations.SelfJumpIsFixed :=
  fun _ _ _ k hf hd hself => runSteps_of_fixed (step_of_selfJump hf hd hself) k

/-! ## `legacy_shift` is read by the shifts alone -/

/-- The state with another `legacy_shift`. -/
def State.setLegacyShift (b : Bool) (s : State) : State := { s with cfg := { s.cfg with legacyShift := b } }

theorem unread_setLegacyShift (b : Bool) : Unread (State.setLegacyShift b) := by
  constructor <;> intros <;> rfl

/-- Settles O49: an instruction that is no shift runs alike whatever `legacy_shift` holds. -/
theorem onlyShiftsReadLegacyShift : Obligations.OnlyShiftsReadLegacyShift := by
  intro i s t b hright hleft h
  have hrun := exec_runsAlike (unread_setLegacyShift b) i s (.inl ⟨hright, hleft⟩)
    (.inr ⟨fun _ => rfl, fun _ _ => rfl⟩)
  exact exec_next_of_runsAlike (fun _ _ => rfl) hrun h

/-! ## The display is not read -/

theorem unread_setDisp (d : Display) : Unread (·.setDisp d) := by
  constructor <;> intros <;> rfl

/-- `Draw` on another grid flips the same cells, so it ends in the same result. -/
theorem execDraw_setDisp (x y : RegIdx) (len : Fin 16) (s : State) (d : Display) {t : State}
    (h : exec (.draw x y len) s = .next t) : ∃ d', exec (.draw x y len) (s.setDisp d) = .next (t.setDisp d') := by
  simp only [exec, execDraw, effAddr, State.setDisp_mem, State.setDisp_i] at h ⊢
  cases hr : readBytes s.mem (s.i.toNat + 0) len.val with
  | error e =>
    rw [hr] at h
    cases h
    exact ⟨d, rfl⟩
  | ok rows =>
    rw [hr] at h
    simp only [drawRows, flipAll_eq, finish_next] at h ⊢
    cases h
    exact ⟨_, rfl⟩

theorem exec_setDisp {i : Instr} {s t : State} (d : Display) (h : exec i s = .next t) :
    ∃ d', exec i (s.setDisp d) = .next (t.setDisp d') := by
  by_cases hw : writesDisp i
  · rcases hw with ⟨x, y, len, rfl⟩ | rfl
    · exact execDraw_setDisp x y len s d h
    · cases h
      exact ⟨Display.blank, rfl⟩
  · have hrun := exec_runsAlike (unread_setDisp d) i s (.inr fun _ => rfl) (.inl hw)
    exact ⟨d, exec_next_of_runsAlike (fun _ _ => rfl) hrun h⟩

/-- Settles O51: fetch and decode do not see the grid, and no instruction reads it. -/
theorem displayIsNeverRead : Obligations.DisplayIsNeverRead := by
  intro s t d h
  rcases step_cases s with ⟨e, hf, hs⟩ | ⟨op, w, hf, hd, hs⟩ | ⟨op, i, hf, hd, hs⟩
  · cases h.symm.trans hs
    exact ⟨d, step_of_fetch_error (s := s.setDisp d) hf⟩
  · cases h.symm.trans (step_of_unknownInstruction hf hd)
    exact ⟨d, step_of_unknownInstruction (s := s.setDisp d) hf hd⟩
  · obtain ⟨d', hd'⟩ := exec_setDisp d (hs.symm.trans h)
    exact ⟨d', (step_of_instr (s := s.setDisp d) hf hd).trans hd'⟩

end Sys2Proof.Machine
end

section
/-! SUPPORT. The claims about the five instructions that write a flag (spec/42_register_alu.md R101, R108 to R112) and
about `AddIV` (spec/43_index_memory.md R122). -/

namespace Sys2Proof.Machine

/-! ## A result with its flag -/

theorem flagByte_of_true {b : Bool} (h : b = true) : flagByte b = 1#8 := if_pos h

theorem flagByte_of_false {b : Bool} (h : b = false) : flagByte b = 0#8 := if_neg (Bool.eq_false_iff.mp h)

theorem flagByte_toNat (b : Bool) : (flagByte b).toNat = b.toNat := by
  cases b <;> rfl

theorem frameRegs_writeWithFlag (s : State) (x : RegIdx) (value flag : Byte) (r : StepResult) :
    FrameRegs [x, vf] s ((writeWithFlag s x value flag).setResult r) := by
  refine ⟨fun j hj => ?_, rfl, rfl, fun _ => rfl, rfl, rfl, rfl⟩
  simp only [List.mem_cons, List.not_mem_nil, or_false, not_or] at hj
  rw [State.setResult_getV, writeWithFlag_getV, if_neg hj.2, if_neg hj.1]

/-- The outcome `o` from `s` is a success that leaves `flag` in VF and, `x` not being 15, `value` in `V[x]`, and changes
nothing else (D4: the flag wins). -/
def WritesWithFlag (x : RegIdx) (value flag : Byte) (s : State) (o : Host.Outcome State Fault Refusal) : Prop :=
  ∃ t, o = .next t ∧ t.result = .success ∧ FrameRegs [x, vf] s t ∧ (x ≠ vf → t.getV x = value) ∧ t.getV vf = flag

theorem writesWithFlag_complete (x : RegIdx) (value flag : Byte) (s : State) :
    WritesWithFlag x value flag s (complete (writeWithFlag s x value flag)) := by
  refine ⟨_, complete_eq _, rfl, frameRegs_writeWithFlag s x value flag _, fun hx => ?_, ?_⟩
  · rw [State.setResult_getV, writeWithFlag_getV, if_neg hx, if_pos rfl]
  · rw [State.setResult_getV, writeWithFlag_getV, if_pos rfl]

theorem exec_addV2_writesWithFlag (x y : RegIdx) (s : State) :
    WritesWithFlag x (s.getV x + s.getV y) (carryFlag (s.getV x) (s.getV y)) s (exec (.addV2 x y) s) :=
  writesWithFlag_complete _ _ _ s

theorem exec_subV2_writesWithFlag (x y : RegIdx) (s : State) :
    WritesWithFlag x (s.getV x - s.getV y) (noBorrowFlag (s.getV x) (s.getV y)) s (exec (.subV2 x y) s) :=
  writesWithFlag_complete _ _ _ s

theorem exec_subNV2_writesWithFlag (x y : RegIdx) (s : State) :
    WritesWithFlag x (s.getV y - s.getV x) (greaterFlag (s.getV x) (s.getV y)) s (exec (.subNV2 x y) s) :=
  writesWithFlag_complete _ _ _ s

theorem exec_shiftRight_writesWithFlag (x y : RegIdx) (s : State) :
    WritesWithFlag x (shiftSource s x y >>> 1) (lowBitFlag (shiftSource s x y)) s (exec (.shiftRight x y) s) :=
  writesWithFlag_complete _ _ _ s

theorem exec_shiftLeft_writesWithFlag (x y : RegIdx) (s : State) :
    WritesWithFlag x (shiftSource s x y <<< 1) (highBitFlag (shiftSource s x y)) s (exec (.shiftLeft x y) s) :=
  writesWithFlag_complete _ _ _ s

/-! ## The values as numbers -/

theorem byte_sub_toNat (a b : Byte) : ((a - b).toNat : Int) = (a.toNat - b.toNat : Int) % 256 := by
  have ha := a.isLt
  have hb := b.isLt
  rw [BitVec.toNat_sub]
  omega

theorem byte_shiftRight_one_toNat (a : Byte) : (a >>> 1).toNat = a.toNat / 2 := by
  rw [BitVec.toNat_ushiftRight, Nat.shiftRight_eq_div_pow, pow_one]

theorem byte_shiftLeft_one_toNat (a : Byte) : (a <<< 1).toNat = a.toNat * 2 % 256 := by
  rw [BitVec.toNat_shiftLeft, Nat.shiftLeft_eq, pow_one]

theorem lowBitFlag_toNat (a : Byte) : (lowBitFlag a).toNat = a.toNat % 2 := by
  rw [lowBitFlag, flagByte_toNat, BitVec.getLsbD, Nat.toNat_testBit, pow_zero, Nat.div_one]

theorem highBitFlag_toNat (a : Byte) : (highBitFlag a).toNat = a.toNat / 128 := by
  have ha := a.isLt
  rw [highBitFlag, flagByte_toNat, BitVec.getLsbD, Nat.toNat_testBit]
  omega

/-- The source of the shifts, under either dialect (R111, R112). -/
theorem shiftSource_eq {s : State} {x y : RegIdx} {src : Byte}
    (h : (s.cfg.legacyShift = true ∧ src = s.getV y) ∨ (s.cfg.legacyShift = false ∧ src = s.getV x)) :
    shiftSource s x y = src := by
  rcases h with ⟨hcfg, rfl⟩ | ⟨hcfg, rfl⟩ <;> simp [shiftSource, hcfg]

/-! ## The obligations about flags -/

/-- Settles O27: the value is a sum of bytes, which wraps, and the flag compares the sum before it wraps with 255. -/
theorem addV2SumAndCarry : Obligations.AddV2SumAndCarry := by
  intro s x y
  obtain ⟨t, hexec, hok, hframe, hval, hflag⟩ := exec_addV2_writesWithFlag x y s
  refine ⟨t, hexec, hok, hframe, fun hx => ?_, fun hover => ?_, fun hle => ?_⟩
  · rw [hval hx, BitVec.toNat_add]
  · exact hflag.trans (flagByte_of_true (decide_eq_true hover))
  · exact hflag.trans (flagByte_of_false (decide_eq_false (Nat.not_lt.mpr hle)))

/-- Settles O28: the value is a difference of bytes, which wraps, and the flag is the comparison itself. -/
theorem subV2DifferenceAndNoBorrow : Obligations.SubV2DifferenceAndNoBorrow := by
  intro s x y
  obtain ⟨t, hexec, hok, hframe, hval, hflag⟩ := exec_subV2_writesWithFlag x y s
  refine ⟨t, hexec, hok, hframe, fun hx => ?_, fun hle => ?_, fun hlt => ?_⟩
  · rw [hval hx, byte_sub_toNat]
  · exact hflag.trans (flagByte_of_true (decide_eq_true hle))
  · exact hflag.trans (flagByte_of_false (decide_eq_false (Nat.not_le.mpr hlt)))

/-- Settles O29: as `SubV2` with the operands exchanged and a strict comparison. -/
theorem subNV2DifferenceAndStrictFlag : Obligations.SubNV2DifferenceAndStrictFlag := by
  intro s x y
  obtain ⟨t, hexec, hok, hframe, hval, hflag⟩ := exec_subNV2_writesWithFlag x y s
  refine ⟨t, hexec, hok, hframe, fun hx => ?_, fun hlt => ?_, fun hle => ?_⟩
  · rw [hval hx, byte_sub_toNat]
  · exact hflag.trans (flagByte_of_true (decide_eq_true hlt))
  · exact hflag.trans (flagByte_of_false (decide_eq_false (Nat.not_lt.mpr hle)))

/-- Settles O30: a shift right by one bit halves, and the bit shifted out is the remainder. -/
theorem shiftRightBothDialects : Obligations.ShiftRightBothDialects := by
  intro s x y src hsrc
  obtain ⟨t, hexec, hok, hframe, hval, hflag⟩ := exec_shiftRight_writesWithFlag x y s
  rw [shiftSource_eq hsrc] at hval hflag
  exact ⟨t, hexec, hok, hframe, fun hx => by rw [hval hx, byte_shiftRight_one_toNat], by rw [hflag, lowBitFlag_toNat]⟩

/-- Settles O31: a shift left by one bit doubles modulo 256, and the bit shifted out is the quotient by 128. -/
theorem shiftLeftBothDialects : Obligations.ShiftLeftBothDialects := by
  intro s x y src hsrc
  obtain ⟨t, hexec, hok, hframe, hval, hflag⟩ := exec_shiftLeft_writesWithFlag x y s
  rw [shiftSource_eq hsrc] at hval hflag
  exact ⟨t, hexec, hok, hframe, fun hx => by rw [hval hx, byte_shiftLeft_one_toNat], by rw [hflag, highBitFlag_toNat]⟩

/-! ## `AddIV` -/

theorem zextByte_toNat (b : Byte) : (zextByte b).toNat = b.toNat := by
  have := b.isLt
  simp only [zextByte, BitVec.toNat_setWidth]
  omega

theorem exec_addIV (r : RegIdx) (s : State) :
    exec (.addIV r) s = .next ((s.setI (s.i + zextByte (s.getV r))).setResult .success) := rfl

/-- Settles O33: the one update is to `I`, with a sum of 16-bit words, which wraps modulo 65536. -/
theorem addIVWrapsAt16Bits : Obligations.AddIVWrapsAt16Bits := by
  intro s r
  have hsum : (s.i + zextByte (s.getV r)).toNat = (s.i.toNat + (s.getV r).toNat) % 65536 := by
    rw [BitVec.toNat_add, zextByte_toNat]
  exact ⟨_, exec_addIV r s, rfl, hsum, frameIndex_setI s _ _⟩

end Sys2Proof.Machine
end

section
/-! SUPPORT. The claims about memory as data (spec/20_memory.md) and about the instructions that move bytes between
memory and the registers (spec/43_index_memory.md R123 to R126). -/

namespace Sys2Proof.Machine

/-! ## Canonical memories -/

theorem get_eq_zero_of_forall_lt {m : Memory} {a : Nat} (h : ∀ c ∈ m, a < c.1) : m.get a = 0#8 := by
  induction m with
  | nil => rfl
  | cons c rest ih =>
    have hne : c.1 ≠ a := (h c (.head rest)).ne'
    rw [Memory.get, if_neg hne]
    exact ih fun d hd => h d (.tail c hd)

/-- The cells of a canonical memory are the addresses that do not read as zero, with what they read as. -/
theorem mem_iff_get {m : Memory} (hm : m.wf) (c : Host.Cell) : c ∈ m ↔ m.get c.1 = c.2 ∧ c.2 ≠ 0#8 := by
  obtain ⟨hsorted, hcells⟩ := hm
  induction m with
  | nil => exact iff_of_false List.not_mem_nil fun ⟨h, hne⟩ => hne h.symm
  | cons d rest ih =>
    obtain ⟨hlt, hrest⟩ := List.pairwise_cons.mp hsorted
    have hd := (hcells d (.head rest)).2
    have ih := ih hrest fun c hc => hcells c (.tail d hc)
    rw [List.mem_cons, ih, Memory.get]
    by_cases heq : d.1 = c.1
    · have hzero : Memory.get rest c.1 = 0#8 := get_eq_zero_of_forall_lt (heq ▸ hlt)
      rw [if_pos heq, hzero]
      constructor
      · rintro (rfl | ⟨h, hne⟩)
        · exact ⟨rfl, hd⟩
        · exact absurd h.symm hne
      · rintro ⟨h, -⟩
        exact .inl (Prod.ext heq.symm h.symm)
    · rw [if_neg heq]
      exact or_iff_right fun h => heq (congrArg Prod.fst h.symm)

/-- Settles O12: both lists hold the same cells, and a strictly rising list is fixed by its members. -/
theorem canonicalMemoriesAreEqual : Obligations.CanonicalMemoriesAreEqual := by
  intro m m' hm hm' hget
  have : Std.Irrefl fun p q : Host.Cell => p.1 < q.1 := ⟨fun p => Nat.lt_irrefl p.1⟩
  have : Std.Antisymm fun p q : Host.Cell => p.1 < q.1 := ⟨fun p q h h' => absurd h' (Nat.lt_asymm h)⟩
  refine List.Pairwise.eq_of_mem_iff hm.1 hm'.1 fun c => ?_
  rw [mem_iff_get hm, mem_iff_get hm', hget]

/-! ## Blocks in rising order -/

/-- Along a list in an order that carries a property downwards, what lies before the first failure is what has the
property. -/
theorem mem_takeWhile_of_pairwise {α : Type} {R : α → α → Prop} {p : α → Bool}
    (hdown : ∀ a b, R a b → p b = true → p a = true) {l : List α} (hl : l.Pairwise R) (x : α) :
    x ∈ l.takeWhile p ↔ x ∈ l ∧ p x = true := by
  induction l with
  | nil => simp
  | cons a l ih =>
    obtain ⟨ha, hl⟩ := List.pairwise_cons.mp hl
    by_cases hpa : p a = true
    · rw [List.takeWhile_cons_of_pos hpa, List.mem_cons, ih hl, List.mem_cons]
      constructor
      · rintro (rfl | ⟨hx, hpx⟩)
        · exact ⟨.inl rfl, hpa⟩
        · exact ⟨.inr hx, hpx⟩
      · rintro ⟨rfl | hx, hpx⟩
        · exact .inl rfl
        · exact .inr ⟨hx, hpx⟩
    · rw [List.takeWhile_cons_of_neg hpa]
      refine iff_of_false List.not_mem_nil ?_
      rintro ⟨hx, hpx⟩
      rcases List.mem_cons.mp hx with rfl | hx
      · exact hpa hpx
      · exact hpa (hdown a x (ha x hx) hpx)

theorem mem_blockRegs : ∀ n o : RegIdx, o ∈ blockRegs n ↔ o ≤ n := by decide

theorem pairwise_blockRegs (n : RegIdx) : (blockRegs n).Pairwise (· < ·) := by
  have hall : allRegs.Pairwise (· < ·) := by decide
  exact hall.sublist (List.take_sublist _ _)

/-- What a step returns after an access to a block that ends at `last`: success exactly where that lies in `MEM`. -/
def blockResult (last : Nat) : StepResult := if last < memSize then .success else .error .addressOutOfBounds

theorem blockResult_inside {last : Nat} (h : last < 4096) : blockResult last = .success := if_pos h

theorem blockResult_outside {last : Nat} (h : 4096 ≤ last) : blockResult last = .error .addressOutOfBounds :=
  if_neg (Nat.not_lt.mpr h)

/-- The end of a block access is that of its last address. -/
theorem blockResult_of_all {b : Bool} {last : Nat} (h : b = true ↔ last < memSize) (s : State) :
    finish (s, if b then none else some .addressOutOfBounds) = .next (s.setResult (blockResult last)) := by
  by_cases hlast : last < memSize
  · rw [if_pos (h.mpr hlast), blockResult, if_pos hlast, finish_none]
  · rw [if_neg (mt h.mp hlast), blockResult, if_neg hlast, finish_some]

/-! ## A block of stores -/

section
variable {cs : List (Nat × Byte)} (hrising : cs.Pairwise fun c d => c.1 < d.1)
include hrising

theorem mem_takeWhile_inMem (c : Nat × Byte) : c ∈ cs.takeWhile inMem ↔ c ∈ cs ∧ c.1 < memSize := by
  rw [mem_takeWhile_of_pairwise (fun a b hlt hb => ?_) hrising, inMem, decide_eq_true_iff]
  exact decide_eq_true (hlt.trans (of_decide_eq_true hb))

theorem storeAll_get_of_mem (s : State) {c : Nat × Byte} (hc : c ∈ cs) (hin : c.1 < memSize) :
    (storeAll cs s).1.mem.get c.1 = c.2 := by
  rw [storeAll_eq]
  refine foldl_set_get_mem _ _ c ((mem_takeWhile_inMem hrising c).mpr ⟨hc, hin⟩) ?_
  have hlt := List.pairwise_map.mpr (hrising.sublist (List.takeWhile_sublist inMem))
  exact hlt.imp Nat.ne_of_lt

theorem storeAll_get_of_not_mem (s : State) {a : Nat} (h : ∀ c ∈ cs, c.1 < memSize → c.1 ≠ a) :
    (storeAll cs s).1.mem.get a = s.mem.get a := by
  rw [storeAll_eq]
  refine foldl_set_get_other _ _ a fun c hc => ?_
  obtain ⟨hmem, hin⟩ := (mem_takeWhile_inMem hrising c).mp hc
  exact h c hmem hin

/-- Everything a block of stores in rising order does, `last` being its last address: the bytes inside `MEM` are stored,
no other byte is touched, and a block that ends outside raises (R124 to R126). -/
theorem finish_storeAll_spec (s : State) {last : Nat} (hlast : ∃ c ∈ cs, c.1 = last) (hle : ∀ c ∈ cs, c.1 ≤ last) :
    ∃ t, finish (storeAll cs s) = .next t ∧ t.result = blockResult last ∧ FrameMem s t ∧
      (∀ c ∈ cs, c.1 < memSize → t.mem.get c.1 = c.2) ∧
      ∀ a, (∀ c ∈ cs, c.1 < memSize → c.1 ≠ a) → t.mem.get a = s.mem.get a := by
  have hall : cs.all inMem = true ↔ last < memSize := by
    rw [List.all_eq_true]
    constructor
    · obtain ⟨c, hc, rfl⟩ := hlast
      exact fun h => of_decide_eq_true (h c hc)
    · exact fun h c hc => decide_eq_true ((hle c hc).trans_lt h)
  have hend := blockResult_of_all hall (storeAll cs s).1
  refine ⟨(storeAll cs s).1.setResult (blockResult last), ?_, rfl, ?_,
    fun c => storeAll_get_of_mem hrising s, fun a => storeAll_get_of_not_mem hrising s⟩
  · rw [← hend, storeAll_eq]
  · rw [storeAll_eq]
    exact ⟨fun _ => rfl, rfl, rfl, rfl, rfl, rfl⟩

end

/-! ## `SaveRegistersToMem` and `BCDRegister` -/

theorem mem_saveCells (n : RegIdx) (s : State) (c : Nat × Byte) :
    c ∈ saveCells n s ↔ ∃ o ≤ n, (s.i.toNat + o.val, s.getV o) = c := by
  simp only [saveCells, List.mem_map, mem_blockRegs, effAddr]

theorem saveCells_rising (n : RegIdx) (s : State) : (saveCells n s).Pairwise fun c d => c.1 < d.1 :=
  List.pairwise_map.mpr ((pairwise_blockRegs n).imp fun h => Nat.add_lt_add_left h _)

/-- Everything `SaveRegistersToMem` does (R124, R126). -/
theorem exec_saveRegistersToMem_spec (n : RegIdx) (s : State) :
    ∃ t, exec (.saveRegistersToMem n) s = .next t ∧ t.result = blockResult (s.i.toNat + n.val) ∧ FrameMem s t ∧
      (∀ o : RegIdx, o ≤ n → s.i.toNat + o.val < 4096 → t.mem.get (s.i.toNat + o.val) = s.getV o) ∧
      ∀ a, a < s.i.toNat ∨ s.i.toNat + n.val < a ∨ 4096 ≤ a → t.mem.get a = s.mem.get a := by
  obtain ⟨t, hexec, hres, hframe, hget, hother⟩ := finish_storeAll_spec (saveCells_rising n s) s
    ⟨_, (mem_saveCells n s _).mpr ⟨n, le_rfl, rfl⟩, rfl⟩ fun c hc => by
      obtain ⟨o, ho, rfl⟩ := (mem_saveCells n s c).mp hc
      exact Nat.add_le_add_left ho _
  refine ⟨t, hexec, hres, hframe, fun o ho hin => ?_, fun a ha => hother a fun c hc hin => ?_⟩
  · exact hget (s.i.toNat + o.val, s.getV o) ((mem_saveCells n s _).mpr ⟨o, ho, rfl⟩) hin
  · obtain ⟨o, ho, rfl⟩ := (mem_saveCells n s c).mp hc
    have hle : o.val ≤ n.val := ho
    simp only [memSize] at hin ⊢
    omega

theorem bcdCells_rising (r : RegIdx) (s : State) : (bcdCells r s).Pairwise fun c d => c.1 < d.1 := by
  simp [bcdCells, effAddr]

/-- Everything `BCDRegister` does (R125, R126). -/
theorem exec_bcdRegister_spec (r : RegIdx) (s : State) :
    ∃ t, exec (.bcdRegister r) s = .next t ∧ t.result = blockResult (s.i.toNat + 2) ∧ FrameMem s t ∧
      (s.i.toNat < 4096 → t.mem.get s.i.toNat = hundredsDigit (s.getV r)) ∧
      (s.i.toNat + 1 < 4096 → t.mem.get (s.i.toNat + 1) = tensDigit (s.getV r)) ∧
      (s.i.toNat + 2 < 4096 → t.mem.get (s.i.toNat + 2) = onesDigit (s.getV r)) ∧
      ∀ a, a < s.i.toNat ∨ s.i.toNat + 2 < a ∨ 4096 ≤ a → t.mem.get a = s.mem.get a := by
  obtain ⟨t, hexec, hres, hframe, hget, hother⟩ := finish_storeAll_spec (bcdCells_rising r s) s
    (last := s.i.toNat + 2) (by simp [bcdCells, effAddr]) (by simp [bcdCells, effAddr])
  simp only [bcdCells, effAddr, List.forall_mem_cons, Nat.add_zero, memSize] at hget hother
  obtain ⟨hhundreds, htens, hones, -⟩ := hget
  refine ⟨t, hexec, hres, hframe, hhundreds, htens, hones, fun a ha => hother a ?_⟩
  refine ⟨?_, ?_, ?_, fun c hc => absurd hc List.not_mem_nil⟩ <;> omega

theorem hundredsDigit_toNat (b : Byte) : (hundredsDigit b).toNat = b.toNat / 100 := by
  have := b.isLt
  simp only [hundredsDigit, BitVec.toNat_ofNat]
  omega

theorem tensDigit_toNat (b : Byte) : (tensDigit b).toNat = b.toNat / 10 % 10 := by
  simp only [tensDigit, BitVec.toNat_ofNat]
  omega

theorem onesDigit_toNat (b : Byte) : (onesDigit b).toNat = b.toNat % 10 := by
  simp only [onesDigit, BitVec.toNat_ofNat]
  omega

/-! ## The obligations about stores -/

/-- Settles O36: the whole block is inside memory. -/
theorem saveRegistersStoresBlock : Obligations.SaveRegistersStoresBlock := by
  intro s n hin
  obtain ⟨t, hexec, hres, hframe, hget, hother⟩ := exec_saveRegistersToMem_spec n s
  refine ⟨t, hexec, hres.trans (blockResult_inside hin), fun o ho => hget o ho ?_, fun a ha => hother a ?_, hframe⟩
  · exact (Nat.add_le_add_left ho _).trans_lt hin
  · exact ha.imp_right .inl

/-- Settles O37: the block ends outside memory, and what lies inside is stored. -/
theorem saveRegistersPastTheEnd : Obligations.SaveRegistersPastTheEnd := by
  intro s n hout
  obtain ⟨t, hexec, hres, hframe, hget, hother⟩ := exec_saveRegistersToMem_spec n s
  exact ⟨t, hexec, hres.trans (blockResult_outside hout), hget, fun a ha => hother a (ha.imp_right .inr), hframe⟩

/-- Settles O13: `V[0]` and `V[1]` are in the block, and a fetch at an even `I` puts the byte at `I` first. -/
theorem storedBytesAreFetched : Obligations.StoredBytesAreFetched := by
  intro s t n hn heven hin hexec
  obtain ⟨u, hu, -, ⟨-, hi, -⟩, hget, -⟩ := exec_saveRegistersToMem_spec n s
  cases hexec.symm.trans hu
  have h0 : t.mem.get s.i.toNat = s.getV 0 := hget 0 (Fin.zero_le n) (by omega)
  have h1 : t.mem.get (s.i.toNat + 1) = s.getV 1 := hget 1 hn (by omega)
  refine (fetch_eq_ok_iff _ _).mpr ?_
  rw [State.setPc_pc, State.setPc_mem, hi, h0, h1]
  exact ⟨(Nat.le_add_right _ _).trans_lt hin, heven, rfl⟩

/-- Settles O38: all three addresses are inside memory. -/
theorem bcdStoresDigits : Obligations.BCDStoresDigits := by
  intro s r hin
  obtain ⟨t, hexec, hres, hframe, hhundreds, htens, hones, hother⟩ := exec_bcdRegister_spec r s
  refine ⟨t, hexec, hres.trans (blockResult_inside hin), ?_, ?_, ?_, fun a ha => hother a (ha.imp_right .inl), hframe⟩
  · rw [hhundreds (by omega), hundredsDigit_toNat]
  · rw [htens (by omega), tensDigit_toNat]
  · rw [hones hin, onesDigit_toNat]

/-- Settles O39: the last address is outside memory; the first is inside up to 4095, the second up to 4094. -/
theorem bcdPastTheEnd : Obligations.BCDPastTheEnd := by
  intro s r hout
  obtain ⟨t, hexec, hres, hframe, hhundreds, htens, -, hother⟩ := exec_bcdRegister_spec r s
  refine ⟨t, hexec, hres.trans (blockResult_outside hout), hframe, fun hle => ?_, fun heq => ?_,
    fun a ha => hother a (ha.imp_right .inr)⟩
  · rw [hhundreds (by omega), hundredsDigit_toNat]
  · rw [heq] at htens
    rw [htens (by omega), tensDigit_toNat]

/-! ## `LoadRegistersFromMem` -/

theorem mem_takeWhile_blockRegs (base : Nat) (n o : RegIdx) :
    o ∈ (blockRegs n).takeWhile (fun o => decide (base + o.val < memSize)) ↔ o ≤ n ∧ base + o.val < memSize := by
  rw [mem_takeWhile_of_pairwise (fun a b hlt hb => ?_) (pairwise_blockRegs n), mem_blockRegs, decide_eq_true_iff]
  exact decide_eq_true ((Nat.add_lt_add_left hlt base).trans (of_decide_eq_true hb))

theorem all_blockRegs (base : Nat) (n : RegIdx) :
    (blockRegs n).all (fun o => decide (base + o.val < memSize)) = true ↔ base + n.val < memSize := by
  rw [List.all_eq_true]
  constructor
  · exact fun h => of_decide_eq_true (h n ((mem_blockRegs n n).mpr le_rfl))
  · exact fun h o ho => decide_eq_true ((Nat.add_le_add_left ((mem_blockRegs n o).mp ho) base).trans_lt h)

/-- Everything `LoadRegistersFromMem` does to the registers and returns (R123, R126). -/
theorem exec_loadRegistersFromMem_spec (n : RegIdx) (s : State) :
    ∃ t, exec (.loadRegistersFromMem n) s = .next t ∧ t.result = blockResult (s.i.toNat + n.val) ∧
      ∀ o : RegIdx, t.getV o =
        if o ≤ n ∧ s.i.toNat + o.val < memSize then s.mem.get (s.i.toNat + o.val) else s.getV o := by
  have hend : finish (loadAll s.i.toNat (blockRegs n) s) =
      .next ((loadAll s.i.toNat (blockRegs n) s).1.setResult (blockResult (s.i.toNat + n.val))) := by
    rw [loadAll_eq]
    exact blockResult_of_all (all_blockRegs _ n) _
  refine ⟨_, hend, rfl, fun o => ?_⟩
  rw [State.setResult_getV, loadAll_eq, foldl_setV_getV, if_congr (mem_takeWhile_blockRegs _ n o) rfl rfl]

/-- `LoadRegistersFromMem` leaves all but the registers alone. -/
theorem exec_loadRegistersFromMem_frame {n : RegIdx} {s t : State} (h : exec (.loadRegistersFromMem n) s = .next t) :
    t.i = s.i ∧ t.pc = s.pc ∧ KeepsMem s t ∧ t.disp = s.disp ∧ t.stack = s.stack ∧ t.cfg = s.cfg := by
  have hown := exec_writesOnlyOwn h
  have hmem : t.mem = s.mem := hown.mem (by simp [writesMem])
  exact ⟨hown.index (by simp [writesIndex]), hown.pc (by simp [writesPc]), fun a => by rw [hmem],
    hown.disp (by simp [writesDisp]), hown.stack (by simp [writesStack]), hown.cfg⟩

/-! ## The obligations about loads -/

/-- Settles O34: the whole block is inside memory. -/
theorem loadRegistersLoadsBlock : Obligations.LoadRegistersLoadsBlock := by
  intro s n hin
  obtain ⟨t, hexec, hres, hget⟩ := exec_loadRegistersFromMem_spec n s
  refine ⟨t, hexec, hres.trans (blockResult_inside hin), fun o ho => ?_, fun o ho => ?_,
    exec_loadRegistersFromMem_frame hexec⟩
  · rw [hget, if_pos ⟨ho, (Nat.add_le_add_left ho _).trans_lt hin⟩]
  · rw [hget, if_neg fun h => absurd ho (not_lt.mpr h.1)]

/-- Settles O35: the block ends outside memory, and the registers whose byte lies inside are loaded. -/
theorem loadRegistersPastTheEnd : Obligations.LoadRegistersPastTheEnd := by
  intro s n hout
  obtain ⟨t, hexec, hres, hget⟩ := exec_loadRegistersFromMem_spec n s
  refine ⟨t, hexec, hres.trans (blockResult_outside hout), fun o ho hin => ?_, fun o ho => ?_,
    exec_loadRegistersFromMem_frame hexec⟩
  · rw [hget, if_pos ⟨ho, hin⟩]
  · rw [hget, if_neg]
    rintro ⟨hle, hin⟩
    exact ho.elim (fun hlt => absurd hle (not_le.mpr hlt)) fun hge => absurd hin (Nat.not_lt.mpr hge)

end Sys2Proof.Machine
end

section
/-! SUPPORT. The claims about `Draw` (spec/44_display.md R133). -/

namespace Sys2Proof.Machine

/-! ## The two phases -/

/-- The rows that phase 1 reads. -/
def spriteRows (s : State) (len : Fin 16) : List Byte := (List.range len.val).map fun r => s.mem.get (s.i.toNat + r)

/-- The cells that phase 2 flips, in its order. -/
def drawPixels (s : State) (x y : RegIdx) (len : Fin 16) : List (Nat × Nat) :=
  spritePixels (s.getV x).toNat (s.getV y).toNat (spriteRows s len)

/-- The sprite lies inside memory, or has no rows. -/
def SpriteReadable (s : State) (len : Fin 16) : Prop := len.val = 0 ∨ s.i.toNat + len.val ≤ memSize

/-- What a list of flips returns: success exactly where all of it lies on the grid. -/
def flipResult (ps : List (Nat × Nat)) : StepResult :=
  if ps.all inGrid then .success else .error .displayOutOfBounds

/-- A list of flips up to the first that falls off the grid. -/
def flipped (ps : List (Nat × Nat)) (d : Display) : Display :=
  (ps.takeWhile inGrid).foldl (fun d p => d.toggle p.1 p.2) d

theorem drawRows_finish (x y : RegIdx) (rows : List Byte) (s : State) :
    finish (drawRows x y rows s) =
      .next ((s.setDisp (flipped (spritePixels (s.getV x).toNat (s.getV y).toNat rows) s.disp)).setResult
        (flipResult (spritePixels (s.getV x).toNat (s.getV y).toNat rows))) := by
  rw [drawRows, flipAll_eq, flipped, flipResult]
  split_ifs <;> rfl

/-- Everything `Draw` does once its sprite is read: the flips and what they return. -/
theorem exec_draw_of_readable {s : State} {len : Fin 16} (x y : RegIdx) (h : SpriteReadable s len) :
    exec (.draw x y len) s =
      .next ((s.setDisp (flipped (drawPixels s x y len) s.disp)).setResult (flipResult (drawPixels s x y len))) := by
  have hread : readBytes s.mem (effAddr s 0) len.val = .ok (spriteRows s len) := by
    rw [readBytes_eq, effAddr, Nat.add_zero]
    exact if_pos h
  rw [exec, execDraw, hread]
  exact drawRows_finish x y _ s

theorem exec_draw_of_not_readable {s : State} {len : Fin 16} (x y : RegIdx) (h : ¬ SpriteReadable s len) :
    exec (.draw x y len) s = .next (s.setResult (.error .addressOutOfBounds)) := by
  have hread : readBytes s.mem (effAddr s 0) len.val = .error .addressOutOfBounds := by
    rw [readBytes_eq, effAddr, Nat.add_zero]
    exact if_neg h
  rw [exec, execDraw, hread]
  rfl

/-! ## Reading past the end of memory -/

/-- Settles O42: a sprite that is not readable ends `Draw` in its first phase. -/
theorem drawReadsBeforeItFlips : Obligations.DrawReadsBeforeItFlips := by
  intro s x y len hpos hout
  have hnot : ¬ SpriteReadable s len := by
    unfold SpriteReadable memSize
    omega
  exact ⟨_, exec_draw_of_not_readable x y hnot, rfl, frameAll_setResult s _⟩

/-! ## Drawing twice -/

/-- The same flips twice are none. -/
theorem flipped_flipped (ps : List (Nat × Nat)) (d : Display) : flipped ps (flipped ps d) = d := by
  refine Display.ext_get _ _ fun px py hx hy => ?_
  rw [flipped, flipped, foldl_toggle_get _ _ _ _ ⟨hx, hy⟩, foldl_toggle_get _ _ _ _ ⟨hx, hy⟩, Bool.xor_assoc,
    Bool.xor_self, Bool.xor_false]

/-- Settles O44: the second `Draw` reads the same sprite and flips the same cells, and a cell flipped twice is as it
was. -/
theorem drawTwiceRestores : Obligations.DrawTwiceRestores := by
  intro s t u x y len hst hok htu
  by_cases hread : SpriteReadable s len
  · cases hst.symm.trans (exec_draw_of_readable x y hread)
    cases htu.symm.trans (exec_draw_of_readable x y hread)
    exact ⟨hok, flipped_flipped _ s.disp⟩
  · cases hst.symm.trans (exec_draw_of_not_readable x y hread)
    cases hok

/-! ## The set bits of a sprite in row-major order -/

/-- The set bits `(r, c)` of the sprite at `I`. -/
def spriteBits (s : State) (len : Fin 16) : List (Nat × Nat) :=
  (List.range len.val).flatMap fun r => (spriteColumns.filter fun c => spriteBit s r c).map fun c => (r, c)

/-- The cell under bit `(r, c)`: column first, the sums unreduced (D8). -/
def bitPixel (s : State) (x y : RegIdx) (b : Nat × Nat) : Nat × Nat := ((s.getV x).toNat + b.2, (s.getV y).toNat + b.1)

theorem mem_spriteColumns (c : Nat) : c ∈ spriteColumns ↔ c < 8 := by
  simp only [spriteColumns, List.mem_cons, List.not_mem_nil, or_false]
  omega

theorem mem_spriteBits (s : State) (len : Fin 16) (r c : Nat) :
    (r, c) ∈ spriteBits s len ↔ r < len.val ∧ c < 8 ∧ spriteBit s r c = true := by
  simp [spriteBits, mem_spriteColumns]

theorem spritePixels_map_range (f : Nat → Byte) (x0 y0 n : Nat) :
    spritePixels x0 y0 ((List.range n).map f) = (List.range n).flatMap fun r => rowPixels x0 (y0 + r) (f r) := by
  induction n generalizing f y0 with
  | zero => rfl
  | succ n ih =>
    rw [List.range_succ_eq_map, List.map_cons, List.map_map, spritePixels, ih, List.flatMap_cons, List.flatMap_map]
    simp only [Function.comp_apply, Nat.succ_eq_add_one, Nat.add_zero, Nat.add_assoc, Nat.add_comm 1]

theorem drawPixels_eq_map (s : State) (x y : RegIdx) (len : Fin 16) :
    drawPixels s x y len = (spriteBits s len).map (bitPixel s x y) := by
  rw [drawPixels, spriteRows, spritePixels_map_range, spriteBits, List.map_flatMap]
  simp only [List.map_map]
  rfl

theorem bitPixel_injective (s : State) (x y : RegIdx) : Function.Injective (bitPixel s x y) := by
  intro b b' h
  obtain ⟨hcol, hrow⟩ := Prod.mk.inj h
  exact Prod.ext (Nat.add_left_cancel hrow) (Nat.add_left_cancel hcol)

/-- Row-major order on bits as pairs. -/
def Before (b b' : Nat × Nat) : Prop := bitBefore b.1 b.2 b'.1 b'.2

theorem not_before_of_before {b b' : Nat × Nat} (h : Before b b') : ¬ Before b' b := by
  unfold Before bitBefore at *
  omega

theorem ne_of_before {b b' : Nat × Nat} (h : Before b b') : b ≠ b' := by
  rintro rfl
  exact not_before_of_before h h

theorem spriteBits_pairwise (s : State) (len : Fin 16) : (spriteBits s len).Pairwise Before := by
  have hcols : spriteColumns.Pairwise (· < ·) := by decide
  refine List.pairwise_flatMap.mpr ⟨fun r _ => ?_, List.pairwise_lt_range.imp fun hlt => ?_⟩
  · exact List.pairwise_map.mpr ((hcols.filter _).imp fun hlt => .inr ⟨rfl, hlt⟩)
  · intro b hb b' hb'
    obtain ⟨c, -, rfl⟩ := List.mem_map.mp hb
    obtain ⟨c', -, rfl⟩ := List.mem_map.mp hb'
    exact .inl hlt

/-! ## The bits that are drawn -/

/-- The set bits before the first that falls off the grid. -/
def drawnBits (s : State) (x y : RegIdx) (len : Fin 16) : List (Nat × Nat) :=
  (spriteBits s len).takeWhile fun b => inGrid (bitPixel s x y b)

/-- A cell is flipped exactly if a drawn bit falls on it, since no two bits fall on one cell. -/
theorem flipped_drawPixels_get (s : State) (x y : RegIdx) (len : Fin 16) {px py : Nat} (hx : px < 64) (hy : py < 32) :
    (flipped (drawPixels s x y len) s.disp).get px py =
      (s.disp.get px py ^^ decide ((px, py) ∈ (drawnBits s x y len).map (bitPixel s x y))) := by
  have hdrawn : (drawPixels s x y len).takeWhile inGrid = (drawnBits s x y len).map (bitPixel s x y) := by
    rw [drawPixels_eq_map, List.takeWhile_map]
    rfl
  have hnodup : ((drawnBits s x y len).map (bitPixel s x y)).Nodup := by
    refine List.Nodup.map (bitPixel_injective s x y) ?_
    exact ((spriteBits_pairwise s len).sublist (List.takeWhile_sublist _)).imp ne_of_before
  rw [flipped, foldl_toggle_get _ _ _ _ ⟨hx, hy⟩, hdrawn, hnodup.count]
  congr 2
  split <;> simp_all

/-- What the grid holds after the flips, when the drawn bits are the set bits that satisfy `P`. -/
theorem flipped_cells {s : State} {x y : RegIdx} {len : Fin 16} {P : Nat → Nat → Prop}
    (hdrawn : ∀ r c, (r, c) ∈ drawnBits s x y len ↔ (r < len.val ∧ c < 8 ∧ spriteBit s r c = true) ∧ P r c)
    (px py : Nat) (hx : px < 64) (hy : py < 32) :
    (∀ r c, r < len.val → c < 8 → P r c → px = (s.getV x).toNat + c → py = (s.getV y).toNat + r →
      (flipped (drawPixels s x y len) s.disp).get px py = (s.disp.get px py ^^ spriteBit s r c)) ∧
    ((∀ r c, r < len.val → c < 8 → P r c → ¬ (px = (s.getV x).toNat + c ∧ py = (s.getV y).toNat + r)) →
      (flipped (drawPixels s x y len) s.disp).get px py = s.disp.get px py) := by
  rw [flipped_drawPixels_get s x y len hx hy]
  constructor
  · rintro r c hr hc hP rfl rfl
    have hmem : ((s.getV x).toNat + c, (s.getV y).toNat + r) ∈ (drawnBits s x y len).map (bitPixel s x y) ↔
        spriteBit s r c = true := by
      change bitPixel s x y (r, c) ∈ _ ↔ _
      rw [List.mem_map_of_injective (bitPixel_injective s x y), hdrawn]
      exact ⟨fun ⟨⟨_, _, hbit⟩, _⟩ => hbit, fun hbit => ⟨⟨hr, hc, hbit⟩, hP⟩⟩
    simp only [hmem, Bool.decide_eq_true]
  · intro hnone
    have hnot : (px, py) ∉ (drawnBits s x y len).map (bitPixel s x y) := by
      intro hmem
      obtain ⟨⟨r, c⟩, hb, heq⟩ := List.mem_map.mp hmem
      obtain ⟨⟨hr, hc, -⟩, hP⟩ := (hdrawn r c).mp hb
      obtain ⟨hcol, hrow⟩ := Prod.mk.inj heq
      exact hnone r c hr hc hP ⟨hcol.symm, hrow.symm⟩
    rw [decide_eq_false hnot, Bool.xor_false]

/-- Along a list in an asymmetric order whose first failure is `a`, what lies before the failure is what precedes
`a`. -/
theorem mem_takeWhile_of_first {α : Type} {R : α → α → Prop} {p : α → Bool} (hasymm : ∀ a b, R a b → ¬ R b a)
    {l : List α} (hl : l.Pairwise R) {a : α} (ha : a ∈ l) (hpa : p a = false) (hbefore : ∀ b ∈ l, R b a → p b = true)
    (b : α) : b ∈ l.takeWhile p ↔ b ∈ l ∧ R b a := by
  induction l with
  | nil => exact absurd ha List.not_mem_nil
  | cons d l ih =>
    obtain ⟨hd, hl⟩ := List.pairwise_cons.mp hl
    rcases List.mem_cons.mp ha with rfl | ha
    · rw [List.takeWhile_cons_of_neg (by simp [hpa])]
      refine iff_of_false List.not_mem_nil ?_
      rintro ⟨hb, hba⟩
      rcases List.mem_cons.mp hb with rfl | hb
      · exact hasymm _ _ hba hba
      · exact hasymm _ _ hba (hd b hb)
    · have hda : R d a := hd a ha
      have ih := ih hl ha fun c hc => hbefore c (.tail d hc)
      rw [List.takeWhile_cons_of_pos (hbefore d (.head l) hda), List.mem_cons, ih, List.mem_cons]
      constructor
      · rintro (rfl | ⟨hb, hba⟩)
        · exact ⟨.inl rfl, hda⟩
        · exact ⟨.inr hb, hba⟩
      · rintro ⟨rfl | hb, hba⟩
        · exact .inl rfl
        · exact .inr ⟨hb, hba⟩

theorem inGrid_bitPixel_iff (s : State) (x y : RegIdx) (r c : Nat) :
    inGrid (bitPixel s x y (r, c)) = true ↔ (s.getV x).toNat + c < 64 ∧ (s.getV y).toNat + r < 32 :=
  decide_eq_true_iff

/-! ## The obligations -/

/-- Settles O41: every set bit falls on the grid, so all are drawn. -/
theorem drawFlipsTheSprite : Obligations.DrawFlipsTheSprite := by
  intro s x y len hread hgrid
  have hall : ∀ b ∈ spriteBits s len, inGrid (bitPixel s x y b) = true := by
    rintro ⟨r, c⟩ hb
    obtain ⟨hr, hc, hbit⟩ := (mem_spriteBits s len r c).mp hb
    exact (inGrid_bitPixel_iff s x y r c).mpr (hgrid r hr c hc hbit)
  have hres : flipResult (drawPixels s x y len) = .success := by
    refine if_pos (List.all_eq_true.mpr ?_)
    rw [drawPixels_eq_map]
    exact List.forall_mem_map.mpr hall
  have hdrawn : ∀ r c, (r, c) ∈ drawnBits s x y len ↔
      (r < len.val ∧ c < 8 ∧ spriteBit s r c = true) ∧ True := by
    intro r c
    rw [drawnBits, List.takeWhile_eq_self_iff.mpr hall, mem_spriteBits, and_true]
  refine ⟨_, exec_draw_of_readable x y hread, hres, frameDisp_setDisp s _ _, fun px py hx hy => ?_⟩
  obtain ⟨hon, hoff⟩ := flipped_cells hdrawn px py hx hy
  exact ⟨fun r c hr hc => hon r c hr hc trivial, fun hnone => hoff fun r c hr hc _ => hnone r c hr hc⟩

/-- Settles O43: the set bits that are drawn are those before the first that falls off the grid. -/
theorem drawOffTheGrid : Obligations.DrawOffTheGrid := by
  intro s x y len r₀ c₀ hread hr₀ hc₀ hbit₀ hout hbefore
  have hmem₀ : (r₀, c₀) ∈ spriteBits s len := (mem_spriteBits s len r₀ c₀).mpr ⟨hr₀, hc₀, hbit₀⟩
  have hout₀ : inGrid (bitPixel s x y (r₀, c₀)) = false := by
    rw [← Bool.not_eq_true, inGrid_bitPixel_iff]
    omega
  have hon : ∀ b ∈ spriteBits s len, Before b (r₀, c₀) → inGrid (bitPixel s x y b) = true := by
    rintro ⟨r, c⟩ hb hlt
    obtain ⟨hr, hc, hbit⟩ := (mem_spriteBits s len r c).mp hb
    exact (inGrid_bitPixel_iff s x y r c).mpr (hbefore r hr c hc hlt hbit)
  have hres : flipResult (drawPixels s x y len) = .error .displayOutOfBounds := by
    refine if_neg fun hall => ?_
    rw [drawPixels_eq_map, List.all_eq_true, List.forall_mem_map] at hall
    exact absurd (hall _ hmem₀) (by simp [hout₀])
  have hdrawn : ∀ r c, (r, c) ∈ drawnBits s x y len ↔
      (r < len.val ∧ c < 8 ∧ spriteBit s r c = true) ∧ bitBefore r c r₀ c₀ := by
    intro r c
    rw [drawnBits, mem_takeWhile_of_first (fun _ _ => not_before_of_before) (spriteBits_pairwise s len) hmem₀ hout₀ hon,
      mem_spriteBits]
    rfl
  exact ⟨_, exec_draw_of_readable x y (.inr hread), hres, frameDisp_setDisp s _ _, flipped_cells hdrawn⟩

end Sys2Proof.Machine
end

section
/-! SUPPORT. The claims about RESET, LOAD and the display port (spec/70_reset_and_hazards.md, spec/44_display.md
R136). -/

namespace Sys2Proof.Machine

/-! ## RESET and LOAD -/

theorem hostOp_reset (l : Option Bool) (s : State) :
    hostOp (.reset l) s = .next (State.resetWith { s.cfg with legacyShift := l.getD false }, .success) := rfl

theorem hostOp_load (p : List Byte) (s : State) : hostOp (.load p) s = .next (load p s) := rfl

theorem load_of_fits {p : List Byte} (h : p.length ≤ 3584) (s : State) :
    load p s = ((State.resetWith s.cfg).setMem (copyBytes [] programBase p), .success) :=
  if_neg (Nat.not_lt.mpr h)

theorem load_of_tooLong {p : List Byte} (h : 3584 < p.length) (s : State) :
    load p s = (State.resetWith s.cfg, .error .addressOutOfBounds) :=
  if_pos h

/-- Settles O55: the fields of the reset state, whose registers, memory and grid read as zero. -/
theorem resetState : Obligations.ResetState := by
  refine ⟨fun c => ⟨rfl, rfl, rfl, rfl, State.resetWith_getV c, Memory.get_nil, Display.get_blank⟩, rfl, rfl, ?_⟩
  exact fun s l => ⟨_, hostOp_reset l s, rfl⟩

/-- Settles O57: LOAD tests the length before it copies. -/
theorem loadTooLongFails : Obligations.LoadTooLongFails := by
  intro s p h
  rw [hostOp_load, load_of_tooLong h]

/-- Settles O56: the copy starts from empty memory, so what it does not write reads as zero; all else is as RESET
leaves it. -/
theorem loadCopiesTheProgram : Obligations.LoadCopiesTheProgram := by
  intro s p h
  refine ⟨_, congrArg Host.Outcome.next (load_of_fits h s), fun k hk => ?_, fun a ha => ?_, State.resetWith_getV s.cfg,
    rfl, rfl, Display.get_blank, rfl, rfl⟩
  · have hin : programBase ≤ 0x200 + k ∧ 0x200 + k < programBase + p.length :=
      ⟨Nat.le_add_right _ _, Nat.add_lt_add_left hk _⟩
    rw [State.setMem_mem, copyBytes_get, dif_pos hin]
    simp
  · have hout : ¬ (programBase ≤ a ∧ a < programBase + p.length) := by
      unfold programBase
      omega
    rw [State.setMem_mem, copyBytes_get, dif_neg hout, Memory.get_nil]

/-! ## The display port -/

section
variable {px py : Nat}

theorem hostReadPixel_inside (hx : px < 64) (hy : py < 32) (s : State) :
    hostReadPixel px py s = .pixel (s.disp.get px py) :=
  if_neg (by simp only [dispW, dispH]; omega)

theorem hostReadPixel_outside (h : 64 ≤ px ∨ 32 ≤ py) (s : State) :
    hostReadPixel px py s = .error .displayOutOfBounds :=
  if_pos h

theorem hostFlipPixel_inside (hx : px < 64) (hy : py < 32) (s : State) :
    hostFlipPixel px py s = (s.setDisp (s.disp.toggle px py), .success) := by
  rw [hostFlipPixel, flipPixel_eq, if_pos ⟨hx, hy⟩]

theorem hostFlipPixel_outside (h : 64 ≤ px ∨ 32 ≤ py) (s : State) :
    hostFlipPixel px py s = (s, .error .displayOutOfBounds) := by
  rw [hostFlipPixel, flipPixel, if_pos h]

theorem toggle_get_same (hx : px < 64) (hy : py < 32) (d : Display) :
    (d.toggle px py).get px py = !d.get px py := by
  rw [Display.get_toggle, if_pos ⟨rfl, rfl, hx, hy⟩]

theorem toggle_get_of_ne {qx qy : Nat} (h : ¬ (qx = px ∧ qy = py)) (d : Display) :
    (d.toggle px py).get qx qy = d.get qx qy := by
  rw [Display.get_toggle, if_neg fun hq => h ⟨hq.1, hq.2.1⟩]

end

/-- The display port changes the grid alone. -/
theorem frameDisp_port (s : State) (d : Display) : FrameDisp s (s.setDisp d) :=
  frameDisp_setDisp s d s.result

/-- Settles O58: the port's two accesses test the coordinates first; a flip is one toggle; a clear is the blank grid. -/
theorem displayPort : Obligations.DisplayPort := by
  intro s px py
  refine ⟨fun hx hy => ⟨?_, _, ?_, frameDisp_port s (s.disp.toggle px py), rfl, toggle_get_same hx hy s.disp,
    fun qx qy hne => toggle_get_of_ne hne s.disp⟩, fun hout => ⟨?_, ?_⟩,
    ⟨_, rfl, frameDisp_port s _, rfl, displayClear_disp_get s⟩⟩
  · rw [hostOp, hostReadPixel_inside hx hy]
  · rw [hostOp, hostFlipPixel_inside hx hy]
  · rw [hostOp, hostReadPixel_outside hout]
  · rw [hostOp, hostFlipPixel_outside hout]

end Sys2Proof.Machine
end
